-- ==== Sys2Proof/Word.lean ====
section
/-! DEFINITION. The plain data every layer uses: words, bytes, register indices, immediates, text.
Widths are the fixed ones of spec/00_scope.md R6. -/

namespace Sys2Proof

/-- A 32-bit instruction word (R6 WORD_BITS, R33). -/
abbrev Word := BitVec 32

/-- One byte of the object byte stream (R40). -/
abbrev Byte := BitVec 8

/-- The 6-bit opcode, which is also ENC's selector (R6 OPCODE_BITS, R26, R61). -/
abbrev Opcode := BitVec 6

/-- A 5-bit register index; an index and nothing else, no register stands behind it (R21, R67). -/
abbrev RegIndex := BitVec 5

/-- A 16-bit immediate field (R6 IMM_BITS, R68, R69). -/
abbrev Imm := BitVec 16

/-- A string of the spec (R10: strings are ASCII; log 6). -/
abbrev Text := List Char

/-- An ASCII string by the codes of its characters (R10). -/
abbrev AsciiCodes := List (Fin 128)

end Sys2Proof
end

