-- ==== Sys2Proof/Config.lean ====
section
/-! DEFINITION. The configuration parameters of spec/00_scope.md R7. They are plain data, given for a
whole run and fixed during it (R232), so they stand in State as one field; what an implementation
may choose beyond plain data (an arbitrary LISTING_HEX) is a constant without a body. -/

namespace Sys2Proof

/-- OBJ_FORMAT of R7: the object byte layout (R41). -/
inductive ObjFormat where
  /-- RAW_LE, the canonical headerless little-endian stream (R42). -/
  | rawLE
  /-- LEGACY_BE, the big-endian stream with an 8-byte header (R43). -/
  | legacyBE
  deriving DecidableEq, Repr

/-- LISTING_HEX of R7 as plain data: it names a rendering function of a 32-bit value (log 7). -/
inductive HexStyle where
  /-- The default: 8 uppercase hex digits, no prefix (R7, R176). -/
  | upper8
  /-- Any other rendering function into ASCII: the `n`-th of a family this model leaves open. -/
  | custom (n : Nat)
  deriving DecidableEq, Repr

/-- DESIGN CHOICE (log 7), safe: the rendering functions LISTING_HEX may be besides the default. Their
results are ASCII, as the whole listing is (R10, R176). No body, so that nothing else can be proved of
what they print. -/
opaque Config.customListingHex : Nat → Word → AsciiCodes

/-- The default of UNKNOWN_TEXT (R7, R162). -/
def defaultUnknownText : Text := "unknown instruction".toList

/-- The configuration of a run (R7), with the defaults of its table. -/
structure Config where
  /-- OBJ_FORMAT. -/
  objFormat : ObjFormat := .rawLE
  /-- STRICT_DECODE. -/
  strictDecode : Bool := false
  /-- UNKNOWN_TEXT. -/
  unknownText : Text := defaultUnknownText
  /-- LISTING_HEX. -/
  listingHex : HexStyle := .upper8
  /-- MAX_WORDS; that it is at most 2^30 is `Config.wellFormed` (log 8). -/
  maxWords : Nat := 2 ^ 30
  deriving DecidableEq, Repr

end Sys2Proof
end

