-- ==== Sys2Proof/Syntax.lean ====
section
/-! DEFINITION. The instructions, and the records the sub-blocks hand to one another (spec/10_state.md
R26, R27, R29). -/

namespace Sys2Proof

/-- One constructor per row of spec/opcode_table.json, its operands in text order (R66, R81).
Every operand value is admitted (R22, R89), so every term is a well-formed instruction: the types
carry the field widths of R6. -/
inductive Instr where
  | halt
  | add (rd rs1 rs2 : RegIndex)
  | addi (rd rs1 : RegIndex) (imm : Imm)
  | bne (rs1 rs2 : RegIndex) (imm : Imm)
  | mul (rd rs1 rs2 : RegIndex)
  | lui (rd : RegIndex) (imm : Imm)
  | lw (rd : RegIndex) (imm : Imm) (rs1 : RegIndex)
  | sw (rs2 : RegIndex) (imm : Imm) (rs1 : RegIndex)
  | blt (rs1 rs2 : RegIndex) (imm : Imm)
  | slli (rd rs1 : RegIndex) (imm : Imm)
  | sub (rd rs1 rs2 : RegIndex)
  deriving DecidableEq, Repr

/-- The 11 mnemonics FE knows (R77). -/
inductive Mnemonic where
  | halt | add | addi | bne | mul | lui | lw | sw | blt | slli | sub
  deriving DecidableEq, Repr

/-- The operand kinds of R77. -/
inductive OperandKind where
  | reg | imm | mem
  deriving DecidableEq, Repr

/-- ENC's input ports (R26), which are also FE's token record Tok (R29). -/
structure Tok where
  sel : Opcode
  rd : RegIndex
  rs1 : RegIndex
  rs2 : RegIndex
  imm : Imm
  deriving DecidableEq, Repr

/-- ENC's output ports (R26). -/
structure EncOut where
  word : Word
  ok : Bool
  deriving DecidableEq, Repr

/-- DEC's output ports, the decoded record (R27). -/
structure DecRecord where
  kind : BitVec 4
  rd : RegIndex
  rs1 : RegIndex
  rs2 : RegIndex
  imm : Imm
  raw : Word
  deriving DecidableEq, Repr

/-- Why DEC finds no defined mnemonic in a word (R72, R163, R165). DEC's result is the same for each,
the unknown record of R162; `truncated` is the one case that is no word at all. -/
inductive DecodeError where
  /-- The opcode is 11 to 63 (R72, R162). -/
  | unassignedOpcode (raw : Word)
  /-- The opcode is 0 and another bit is set (R163). -/
  | nonzeroHalt (raw : Word)
  /-- STRICT_DECODE, and a reserved or fixed field is not 0 (R71, R165). -/
  | reservedBits (raw : Word)
  /-- Fewer than four bytes are left: a trailing partial word (R44, R45). -/
  | truncated (bytes : Nat)
  deriving DecidableEq, Repr

/-- The fatal conditions that an assembly run reports with a line number and a token (R200, R202). -/
inductive LineCondition where
  /-- 1 E_UNKNOWN_MNEMONIC. -/
  | unknownMnemonic
  /-- 2 E_INVALID_REGISTER. -/
  | invalidRegister
  /-- 3 E_INVALID_IMMEDIATE. -/
  | invalidImmediate
  /-- 4 E_MALFORMED_MEMORY_OPERAND. -/
  | malformedMemoryOperand
  /-- 5 E_OPERAND_COUNT. -/
  | operandCount
  /-- 6 E_MALFORMED_OPERAND_LIST. -/
  | malformedOperandList
  /-- 7 E_UNRECOGNIZED_SELECTOR, raised by SEQ on `enc_ok` = 0. -/
  | unrecognizedSelector
  /-- 34 E_PROGRAM_TOO_LARGE, raised by SEQ; in a disassembly run it has no line (`Failure`). -/
  | programTooLarge
  deriving DecidableEq, Repr

/-- A condition FE raises, with the offending token (R29, R200). -/
structure LineError where
  code : LineCondition
  token : Text
  deriving DecidableEq, Repr

/-- FE's result for one source line (R29). -/
inductive LineResult where
  /-- A blank or comment-only line. -/
  | skip
  /-- A token record for ENC's ports. -/
  | tok (t : Tok)
  /-- SyntaxError(code, token). -/
  | failed (e : LineError)
  deriving DecidableEq, Repr

end Sys2Proof
end

