-- ==== Sys2Proof/WellFormed.lean ====
section
/-! DEFINITION. The checks on data whose type alone does not say it is well formed. `Instr` needs
none: any register index is allowed in every role and any 16-bit immediate in every mnemonic (R22,
R89), and the types hold exactly those. -/

namespace Sys2Proof

/-- The string is ASCII (R10). -/
def Text.isAscii (t : Text) : Bool := t.all fun c => c.toNat < 128

/-- A configuration of R7: MAX_WORDS is at most 2^30 and UNKNOWN_TEXT is an ASCII string. -/
def Config.wellFormed (c : Config) : Bool := c.maxWords ≤ 2 ^ 30 && Text.isAscii c.unknownText

/-- A token record as FE makes it (R29): a defined selector, and every role that its mnemonic does
not use is 0 (R66, R81). -/
def Tok.wellFormed (t : Tok) : Bool :=
  match t.sel.toNat with
  | 0 => t.rd == 0 && t.rs1 == 0 && t.rs2 == 0 && t.imm == 0
  | 1 | 4 | 10 => t.imm == 0
  | 2 | 6 | 9 => t.rs2 == 0
  | 5 => t.rs1 == 0 && t.rs2 == 0
  | 3 | 7 | 8 => t.rd == 0
  | _ => false

/-- A decoded record as DEC makes it (R27): the kind is 0 to 10 or 15, and every role that the kind
does not use is 0. -/
def DecRecord.wellFormed (r : DecRecord) : Bool :=
  match r.kind.toNat with
  | 0 | 15 => r.rd == 0 && r.rs1 == 0 && r.rs2 == 0 && r.imm == 0
  | 1 | 4 | 10 => r.imm == 0
  | 2 | 6 | 9 => r.rs2 == 0
  | 5 => r.rs1 == 0 && r.rs2 == 0
  | 3 | 7 | 8 => r.rd == 0
  | _ => false

end Sys2Proof
end

