-- ==== Sys2Proof/Decode.lean ====
section
/-! DEFINITION. DEC, ENC and the byte layout of one word (spec/30_encoding.md, 40_format_a.md to
43_halt_unknown.md, 20_memory.md R42, R43). The decoder first, the encoder after it, both written
from the same tables (R61, R63 to R66). -/

namespace Sys2Proof

/-! ### The opcode map (R61) -/

/-- The opcode of a mnemonic, which is also its selector (R61, R77). -/
def Mnemonic.opcode : Mnemonic → Opcode
  | .halt => 0
  | .add => 1
  | .addi => 2
  | .bne => 3
  | .mul => 4
  | .lui => 5
  | .lw => 6
  | .sw => 7
  | .blt => 8
  | .slli => 9
  | .sub => 10

/-- The mnemonic in text (R77): lowercase. -/
def Mnemonic.text : Mnemonic → Text
  | .halt => ['h', 'a', 'l', 't']
  | .add => ['a', 'd', 'd']
  | .addi => ['a', 'd', 'd', 'i']
  | .bne => ['b', 'n', 'e']
  | .mul => ['m', 'u', 'l']
  | .lui => ['l', 'u', 'i']
  | .lw => ['l', 'w']
  | .sw => ['s', 'w']
  | .blt => ['b', 'l', 't']
  | .slli => ['s', 'l', 'l', 'i']
  | .sub => ['s', 'u', 'b']

/-- The mnemonic of an instruction. -/
def Instr.mnemonic : Instr → Mnemonic
  | .halt => .halt
  | .add _ _ _ => .add
  | .addi _ _ _ => .addi
  | .bne _ _ _ => .bne
  | .mul _ _ _ => .mul
  | .lui _ _ => .lui
  | .lw _ _ _ => .lw
  | .sw _ _ _ => .sw
  | .blt _ _ _ => .blt
  | .slli _ _ _ => .slli
  | .sub _ _ _ => .sub

/-! ### The fields of a word (R63 to R65) -/

/-- `w[5:0]`, the opcode. -/
def Word.opcode (w : Word) : Opcode := w.extractLsb' 0 6
/-- `w[10:6]`: rd in formats A and B, imm_low in format C. -/
def Word.field10_6 (w : Word) : BitVec 5 := w.extractLsb' 6 5
/-- `w[15:11]`: rs1 in formats A and B, operand-B in format C. -/
def Word.field15_11 (w : Word) : BitVec 5 := w.extractLsb' 11 5
/-- `w[20:16]`: rs2 in format A, operand-A in format C. -/
def Word.field20_16 (w : Word) : BitVec 5 := w.extractLsb' 16 5
/-- `w[31:21]`: reserved in format A, imm_high in format C. -/
def Word.field31_21 (w : Word) : BitVec 11 := w.extractLsb' 21 11
/-- `w[31:16]`: the immediate of format B (R68). -/
def Word.immB (w : Word) : Imm := w.extractLsb' 16 16
/-- `w[31:21] : w[10:6]`: the immediate of format C put back together (R69). -/
def Word.immC (w : Word) : Imm := w.field31_21 ++ w.field10_6

/-! ### DEC: one arm per opcode (R101 to R165) -/

/-- R161, R163: opcode 0 is halt only when the whole word is zero. -/
def decHalt (w : Word) : Except DecodeError Instr :=
  if w = 0 then .ok .halt else .error (.nonzeroHalt w)

/-- R101, R165. -/
def decAdd (strict : Bool) (w : Word) : Except DecodeError Instr :=
  if strict ∧ w.field31_21 ≠ 0 then .error (.reservedBits w)
  else .ok (.add w.field10_6 w.field15_11 w.field20_16)

/-- R121. -/
def decAddi (w : Word) : Except DecodeError Instr :=
  .ok (.addi w.field10_6 w.field15_11 w.immB)

/-- R141: rs1 from operand-A (20:16), rs2 from operand-B (15:11). -/
def decBne (w : Word) : Except DecodeError Instr :=
  .ok (.bne w.field20_16 w.field15_11 w.immC)

/-- R103, R165. -/
def decMul (strict : Bool) (w : Word) : Except DecodeError Instr :=
  if strict ∧ w.field31_21 ≠ 0 then .error (.reservedBits w)
  else .ok (.mul w.field10_6 w.field15_11 w.field20_16)

/-- R127, R165: `w[15:11]` is the fixed field. -/
def decLui (strict : Bool) (w : Word) : Except DecodeError Instr :=
  if strict ∧ w.field15_11 ≠ 0 then .error (.reservedBits w)
  else .ok (.lui w.field10_6 w.immB)

/-- R123. -/
def decLw (w : Word) : Except DecodeError Instr :=
  .ok (.lw w.field10_6 w.immB w.field15_11)

/-- R143: the base rs1 from 20:16, the value rs2 from 15:11. -/
def decSw (w : Word) : Except DecodeError Instr :=
  .ok (.sw w.field15_11 w.immC w.field20_16)

/-- R145: rs1 from operand-B (15:11), rs2 from operand-A (20:16), the inverse of bne. -/
def decBlt (w : Word) : Except DecodeError Instr :=
  .ok (.blt w.field15_11 w.field20_16 w.immC)

/-- R125. -/
def decSlli (w : Word) : Except DecodeError Instr :=
  .ok (.slli w.field10_6 w.field15_11 w.immB)

/-- R105, R165. -/
def decSub (strict : Bool) (w : Word) : Except DecodeError Instr :=
  if strict ∧ w.field31_21 ≠ 0 then .error (.reservedBits w)
  else .ok (.sub w.field10_6 w.field15_11 w.field20_16)

/-- The instruction of a word, or why it is unknown. The opcode alone picks the arm (R62); opcodes 11
to 63 have none (R72). `strict` is STRICT_DECODE. -/
def decode (strict : Bool) (w : Word) : Except DecodeError Instr :=
  match w.opcode.toNat with
  | 0 => decHalt w
  | 1 => decAdd strict w
  | 2 => decAddi w
  | 3 => decBne w
  | 4 => decMul strict w
  | 5 => decLui strict w
  | 6 => decLw w
  | 7 => decSw w
  | 8 => decBlt w
  | 9 => decSlli w
  | 10 => decSub strict w
  | _ => .error (.unassignedOpcode w)

/-! ### The decoded record of each instruction (R27; unused roles are 0) -/

/-- `unknown(w)` of R162. -/
def recUnknown (raw : Word) : DecRecord := ⟨15, 0, 0, 0, 0, raw⟩
/-- R161. -/
def recHalt (raw : Word) : DecRecord := ⟨0, 0, 0, 0, 0, raw⟩
/-- R101. -/
def recAdd (rd rs1 rs2 : RegIndex) (raw : Word) : DecRecord := ⟨1, rd, rs1, rs2, 0, raw⟩
/-- R121. -/
def recAddi (rd rs1 : RegIndex) (imm : Imm) (raw : Word) : DecRecord := ⟨2, rd, rs1, 0, imm, raw⟩
/-- R141. -/
def recBne (rs1 rs2 : RegIndex) (imm : Imm) (raw : Word) : DecRecord := ⟨3, 0, rs1, rs2, imm, raw⟩
/-- R103. -/
def recMul (rd rs1 rs2 : RegIndex) (raw : Word) : DecRecord := ⟨4, rd, rs1, rs2, 0, raw⟩
/-- R127. -/
def recLui (rd : RegIndex) (imm : Imm) (raw : Word) : DecRecord := ⟨5, rd, 0, 0, imm, raw⟩
/-- R123. -/
def recLw (rd : RegIndex) (imm : Imm) (rs1 : RegIndex) (raw : Word) : DecRecord :=
  ⟨6, rd, rs1, 0, imm, raw⟩
/-- R143. -/
def recSw (rs2 : RegIndex) (imm : Imm) (rs1 : RegIndex) (raw : Word) : DecRecord :=
  ⟨7, 0, rs1, rs2, imm, raw⟩
/-- R145. -/
def recBlt (rs1 rs2 : RegIndex) (imm : Imm) (raw : Word) : DecRecord := ⟨8, 0, rs1, rs2, imm, raw⟩
/-- R125. -/
def recSlli (rd rs1 : RegIndex) (imm : Imm) (raw : Word) : DecRecord := ⟨9, rd, rs1, 0, imm, raw⟩
/-- R105. -/
def recSub (rd rs1 rs2 : RegIndex) (raw : Word) : DecRecord := ⟨10, rd, rs1, rs2, 0, raw⟩

/-- DEC's record for a word that decodes to the instruction. -/
def Instr.record : Instr → Word → DecRecord
  | .halt, w => recHalt w
  | .add rd rs1 rs2, w => recAdd rd rs1 rs2 w
  | .addi rd rs1 imm, w => recAddi rd rs1 imm w
  | .bne rs1 rs2 imm, w => recBne rs1 rs2 imm w
  | .mul rd rs1 rs2, w => recMul rd rs1 rs2 w
  | .lui rd imm, w => recLui rd imm w
  | .lw rd imm rs1, w => recLw rd imm rs1 w
  | .sw rs2 imm rs1, w => recSw rs2 imm rs1 w
  | .blt rs1 rs2 imm, w => recBlt rs1 rs2 imm w
  | .slli rd rs1 imm, w => recSlli rd rs1 imm w
  | .sub rd rs1 rs2, w => recSub rd rs1 rs2 w

/-- DEC (R27): every word gives exactly one record (R60). -/
def dec (strict : Bool) (w : Word) : DecRecord :=
  match decode strict w with
  | .ok i => i.record w
  | .error _ => recUnknown w

/-! ### ENC: the field packers (R63 to R65, R146) and one arm per selector -/

/-- Format A: reserved zero, rs2, rs1, rd, opcode (R63). -/
def packA (op : Opcode) (rs2 rs1 rd : RegIndex) : Word := (0 : BitVec 11) ++ rs2 ++ rs1 ++ rd ++ op

/-- Format B: imm, rs1, rd, opcode (R64, R68). -/
def packB (op : Opcode) (imm : Imm) (rs1 rd : RegIndex) : Word := imm ++ rs1 ++ rd ++ op

/-- Format C, `C_pack` of R146: it does not know which roles its two register fields hold. -/
def packC (op : Opcode) (fieldA fieldB : RegIndex) (imm : Imm) : Word :=
  imm.extractLsb' 5 11 ++ fieldA ++ fieldB ++ imm.extractLsb' 0 5 ++ op

/-- R160. -/
def encHalt : Word := 0
/-- R100. -/
def encAdd (rd rs1 rs2 : RegIndex) : Word := packA 1 rs2 rs1 rd
/-- R120. -/
def encAddi (rd rs1 : RegIndex) (imm : Imm) : Word := packB 2 imm rs1 rd
/-- R140, R146: rs1 to operand-A, rs2 to operand-B. -/
def encBne (rs1 rs2 : RegIndex) (imm : Imm) : Word := packC 3 rs1 rs2 imm
/-- R102. -/
def encMul (rd rs1 rs2 : RegIndex) : Word := packA 4 rs2 rs1 rd
/-- R126: the rs1 field is fixed at 0. -/
def encLui (rd : RegIndex) (imm : Imm) : Word := packB 5 imm 0 rd
/-- R122. -/
def encLw (rd : RegIndex) (imm : Imm) (rs1 : RegIndex) : Word := packB 6 imm rs1 rd
/-- R142, R146: the base rs1 to operand-A, the value rs2 to operand-B. -/
def encSw (rs2 : RegIndex) (imm : Imm) (rs1 : RegIndex) : Word := packC 7 rs1 rs2 imm
/-- R144, R146: rs2 to operand-A, rs1 to operand-B. -/
def encBlt (rs1 rs2 : RegIndex) (imm : Imm) : Word := packC 8 rs2 rs1 imm
/-- R124. -/
def encSlli (rd rs1 : RegIndex) (imm : Imm) : Word := packB 9 imm rs1 rd
/-- R104. -/
def encSub (rd rs1 rs2 : RegIndex) : Word := packA 10 rs2 rs1 rd

/-- ENC (R26): the selector mux. An input the selected mnemonic does not use has no effect; selectors
11 to 63 have no arm (R164; log 12). -/
def enc (t : Tok) : EncOut :=
  match t.sel.toNat with
  | 0 => ⟨encHalt, true⟩
  | 1 => ⟨encAdd t.rd t.rs1 t.rs2, true⟩
  | 2 => ⟨encAddi t.rd t.rs1 t.imm, true⟩
  | 3 => ⟨encBne t.rs1 t.rs2 t.imm, true⟩
  | 4 => ⟨encMul t.rd t.rs1 t.rs2, true⟩
  | 5 => ⟨encLui t.rd t.imm, true⟩
  | 6 => ⟨encLw t.rd t.imm t.rs1, true⟩
  | 7 => ⟨encSw t.rs2 t.imm t.rs1, true⟩
  | 8 => ⟨encBlt t.rs1 t.rs2 t.imm, true⟩
  | 9 => ⟨encSlli t.rd t.rs1 t.imm, true⟩
  | 10 => ⟨encSub t.rd t.rs1 t.rs2, true⟩
  | _ => ⟨0, false⟩

/-- The word of an instruction (the encode rules R100 to R160). -/
def encode : Instr → Word
  | .halt => encHalt
  | .add rd rs1 rs2 => encAdd rd rs1 rs2
  | .addi rd rs1 imm => encAddi rd rs1 imm
  | .bne rs1 rs2 imm => encBne rs1 rs2 imm
  | .mul rd rs1 rs2 => encMul rd rs1 rs2
  | .lui rd imm => encLui rd imm
  | .lw rd imm rs1 => encLw rd imm rs1
  | .sw rs2 imm rs1 => encSw rs2 imm rs1
  | .blt rs1 rs2 imm => encBlt rs1 rs2 imm
  | .slli rd rs1 imm => encSlli rd rs1 imm
  | .sub rd rs1 rs2 => encSub rd rs1 rs2

/-- The word with the bits cleared that ENC always sets to 0 and the lenient decoder drops (R71, R87):
`w[31:21]` of add, mul and sub, `w[15:11]` of lui. -/
def Word.clearReserved (w : Word) : Word :=
  match w.opcode.toNat with
  | 1 | 4 | 10 => w &&& 0x001FFFFF
  | 5 => w &&& 0xFFFF07FF
  | _ => w

/-! ### Token records and instructions (R26, R81) -/

/-- The values an instruction puts on ENC's ports; a role it does not use is 0 (R81). -/
def Instr.tok : Instr → Tok
  | .halt => ⟨0, 0, 0, 0, 0⟩
  | .add rd rs1 rs2 => ⟨1, rd, rs1, rs2, 0⟩
  | .addi rd rs1 imm => ⟨2, rd, rs1, 0, imm⟩
  | .bne rs1 rs2 imm => ⟨3, 0, rs1, rs2, imm⟩
  | .mul rd rs1 rs2 => ⟨4, rd, rs1, rs2, 0⟩
  | .lui rd imm => ⟨5, rd, 0, 0, imm⟩
  | .lw rd imm rs1 => ⟨6, rd, rs1, 0, imm⟩
  | .sw rs2 imm rs1 => ⟨7, 0, rs1, rs2, imm⟩
  | .blt rs1 rs2 imm => ⟨8, 0, rs1, rs2, imm⟩
  | .slli rd rs1 imm => ⟨9, rd, rs1, 0, imm⟩
  | .sub rd rs1 rs2 => ⟨10, rd, rs1, rs2, 0⟩

/-- The instruction a token record selects: none for the selectors 11 to 63 (R164). -/
def Tok.instr? (t : Tok) : Option Instr :=
  match t.sel.toNat with
  | 0 => some .halt
  | 1 => some (.add t.rd t.rs1 t.rs2)
  | 2 => some (.addi t.rd t.rs1 t.imm)
  | 3 => some (.bne t.rs1 t.rs2 t.imm)
  | 4 => some (.mul t.rd t.rs1 t.rs2)
  | 5 => some (.lui t.rd t.imm)
  | 6 => some (.lw t.rd t.imm t.rs1)
  | 7 => some (.sw t.rs2 t.imm t.rs1)
  | 8 => some (.blt t.rs1 t.rs2 t.imm)
  | 9 => some (.slli t.rd t.rs1 t.imm)
  | 10 => some (.sub t.rd t.rs1 t.rs2)
  | _ => none

/-! ### The bytes of a word (R42, R43, R46) -/

/-- The four bytes of a word in stream order. -/
def wordBytes : ObjFormat → Word → List Byte
  | .rawLE, w => [w.extractLsb' 0 8, w.extractLsb' 8 8, w.extractLsb' 16 8, w.extractLsb' 24 8]
  | .legacyBE, w => [w.extractLsb' 24 8, w.extractLsb' 16 8, w.extractLsb' 8 8, w.extractLsb' 0 8]

/-- The word of four bytes in stream order (R44, R45). -/
def wordOfBytes : ObjFormat → Byte → Byte → Byte → Byte → Word
  | .rawLE, b0, b1, b2, b3 => b3 ++ b2 ++ b1 ++ b0
  | .legacyBE, b0, b1, b2, b3 => b0 ++ b1 ++ b2 ++ b3

/-- The decoder on bytes: the first instruction and the bytes after it, on any bytes. -/
def decodeBytes (fmt : ObjFormat) (strict : Bool) :
    List Byte → Except DecodeError (Instr × List Byte)
  | b0 :: b1 :: b2 :: b3 :: rest =>
    match decode strict (wordOfBytes fmt b0 b1 b2 b3) with
    | .ok i => .ok (i, rest)
    | .error e => .error e
  | bs => .error (.truncated bs.length)

/-- The encoder to bytes. -/
def encodeBytes (fmt : ObjFormat) (i : Instr) : List Byte := wordBytes fmt (encode i)

/-- The instruction the decoder reads from the word `w` of `nbits` bits, every bit above them 0, laid
out as the default configuration stores it (R7: RAW_LE, STRICT_DECODE = false). -/
def decodeTableWord (nbits w : Nat) : Option Instr :=
  match decodeBytes .rawLE false (wordBytes .rawLE (BitVec.ofNat 32 (w % 2 ^ nbits))) with
  | .ok (i, _) => some i
  | .error _ => none

end Sys2Proof
end

