-- ==== Sys2Proof/Machine/State.lean ====
section
/-! DEFINITION. The machine's state as plain data (spec/10_state.md R30, R31; INVENTORY.md '## State'),
its value after reset, and the reasons a step can stop. -/

namespace Sys2Proof.Machine

/-- Which run SEQ is in (R30, R31, R53). -/
inductive Mode where
  /-- Text to words. -/
  | assembly
  /-- Words to text. -/
  | disassembly
  deriving DecidableEq, Repr

/-- Where the run stands in the pseudocode of R170 or R174. DESIGN CHOICE (log 2), safe: the spec
names no such field; a run shown one step at a time needs it. -/
inductive Phase where
  /-- The input is still to be opened: in a disassembly run, the stream is still to be checked. -/
  | opening
  /-- The run is in its loop over lines or words. -/
  | working
  deriving DecidableEq, Repr

/-- What the environment reports of its input and output (R206; log 9). -/
structure Environment where
  /-- The run's input cannot be had ("file not found"). -/
  inputMissing : Bool := false
  /-- The run's output cannot be written ("write failure"). -/
  writeFails : Bool := false
  deriving DecidableEq, Repr

/-- The record of a fatal condition (R200, R202, R210). -/
inductive Failure where
  /-- Codes 1 to 7, and 34 in an assembly run: the record (code, line_no, token) of R202. -/
  | atLine (code : LineCondition) (lineNo : Nat) (token : Text)
  /-- 32 E_BAD_HEADER, with the stream length. -/
  | badHeader (len : Nat)
  /-- 33 E_COUNT_MISMATCH, with the header's count and the words found. -/
  | countMismatch (count found : Nat)
  /-- 34 E_PROGRAM_TOO_LARGE in a disassembly run, which has no line number (R174; log 16). -/
  | streamTooLarge
  /-- 48 E_IO, raised by the environment; no information is specified (R206). -/
  | io
  deriving DecidableEq, Repr

/-- `status` of R30 and R31 (log 10). -/
inductive RunStatus where
  | running
  | done
  | failed (f : Failure)
  deriving DecidableEq, Repr

/-- A non-fatal condition recorded in a disassembly run (R31, R200). -/
inductive Warning where
  /-- 16 W_UNKNOWN_INSTRUCTION, with the word's index and the raw word (R204). -/
  | unknownInstruction (index : Nat) (raw : Word)
  /-- 17 W_TRAILING_PARTIAL_WORD, with the number of bytes dropped (R205). -/
  | trailingPartialWord (dropped : Nat)
  deriving DecidableEq, Repr

/-- The object byte stream (R40): its bytes by address. The canonical form is `Memory.wf`
(Machine/ObjectStream.lean): the addresses are 0, 1, … len-1 in that order; an address not listed
does not exist and reads as no value (log 5). -/
abbrev Memory := List Host.Cell

/-- What a run that has ended gives (R178). -/
inductive RunOutput where
  /-- DONE, assembly: the words and the object byte stream (R173). -/
  | program (words : List Word) (object : Memory)
  /-- DONE, disassembly: the listing as text and the warnings. -/
  | listing (text : Text) (warnings : List Warning)
  /-- FAILED: the record alone (R171, R210). -/
  | failure (f : Failure)
  deriving DecidableEq, Repr

/-- The state. The spec's own fields are those of R30 and R31, the stream of R40 and the
configuration of R7; `mode`, `phase`, `env` and `text` are the model's own (INVENTORY.md). -/
structure State where
  /-- The configuration parameters, fixed for the run (R7, R232). -/
  config : Config
  /-- What the environment reports (R206). -/
  env : Environment
  /-- The run SEQ is in. -/
  mode : Mode
  /-- The run's control point. -/
  phase : Phase
  /-- `status` (R30, R31). -/
  status : RunStatus
  /-- The source text of an assembly run (R170). -/
  text : Text
  /-- The object byte stream (R40). -/
  stream : Memory
  /-- `line_no` (R30): the 1-based number of the next source line. -/
  lineNo : Nat
  /-- `words` (R30): the words emitted so far. -/
  words : List Word
  /-- `index` (R31): the index of the next word to decode. -/
  index : Nat
  /-- `listing` (R31): the listing lines so far, without their LF. -/
  listing : List Text
  /-- `warnings` (R31): the non-fatal conditions so far, oldest first. -/
  warnings : List Warning
  deriving DecidableEq, Repr

/-- The machine right after reset: every field of R30 and R31 at its start value, the configuration at
R7's defaults. DESIGN CHOICE (log 3), unsafe: the spec gives no run before the environment starts one;
this is the start of a disassembly run of the empty stream. -/
def State.reset : State where
  config := {}
  env := {}
  mode := .disassembly
  phase := .opening
  status := .running
  text := []
  stream := []
  lineNo := 1
  words := []
  index := 0
  listing := []
  warnings := []

/-- Why the machine stops with a fault. None is a condition of R200 (those are next states, R210), and
no step of a state with a well-formed stream reaches one. -/
inductive Fault where
  /-- Raised by a read of four bytes at a stream offset that does not exist (R40: an address is below
  len). Safe: the model stops. -/
  | outsideStream (offset : Nat)
  /-- Raised when an instruction is handed to an assembly run that has no source line left. Safe: the
  model stops. -/
  | outsideSource (lineNo : Nat)
  /-- Raised when an instruction is handed to a run whose status is not RUNNING (R211: nothing runs
  after a fatal condition; R178: a run that is DONE has ended). Safe: the model stops. -/
  | runEnded
  deriving DecidableEq, Repr

/-- Why the machine refuses. -/
inductive Refusal where
  /-- Raised by `exec` for an instruction that has no meaning yet; no arm answers it any more. Safe:
  the model stops. -/
  | notModelled (mnemonic : String)
  deriving DecidableEq, Repr

end Sys2Proof.Machine
end

