-- ==== Sys2Proof/Machine/Flags.lean ====
section
/-! DEFINITION. The status outputs and the numeric codes. The block has no flag that persists
(spec/10_state.md R24): what an operation says of itself is computed here and stored nowhere. -/

namespace Sys2Proof

/-- The selector names a defined mnemonic: what `enc_ok` reports (R24, R26, R164). -/
def Opcode.isDefined (sel : Opcode) : Bool := sel.toNat ≤ 10

/-- `dec_kind` = 15 marks an unknown word (R24, R27). -/
def DecRecord.isUnknown (r : DecRecord) : Bool := r.kind = 15

/-- The code of a condition that has a line (R200). -/
def LineCondition.number : LineCondition → Nat
  | .unknownMnemonic => 1
  | .invalidRegister => 2
  | .invalidImmediate => 3
  | .malformedMemoryOperand => 4
  | .operandCount => 5
  | .malformedOperandList => 6
  | .unrecognizedSelector => 7
  | .programTooLarge => 34

/-- The code of a fatal condition (R200). -/
def Machine.Failure.number : Machine.Failure → Nat
  | .atLine c _ _ => c.number
  | .badHeader _ => 32
  | .countMismatch _ _ => 33
  | .streamTooLarge => 34
  | .io => 48

/-- The code of a non-fatal condition (R200). -/
def Machine.Warning.number : Machine.Warning → Nat
  | .unknownInstruction _ _ => 16
  | .trailingPartialWord _ => 17

end Sys2Proof
end

