-- ==== Sys2Proof/Machine/ObjectStream.lean ====
section
/-! DEFINITION. The object byte stream (spec/20_memory.md R40 to R49): its canonical form, its bytes,
the two layouts, and the checks of a read. -/

namespace Sys2Proof.Machine

/-- The cells from address `k` on, one address after the other. -/
def Memory.ofBytesFrom (k : Nat) : List Byte → Memory
  | [] => []
  | b :: bs => (k, b) :: Memory.ofBytesFrom (k + 1) bs

/-- The stream whose bytes are these, from offset 0 (R40). -/
def Memory.ofBytes (bs : List Byte) : Memory := Memory.ofBytesFrom 0 bs

/-- The bytes of a stream in address order. -/
def Memory.toBytes (m : Memory) : List Byte := m.map Prod.snd

/-- The addresses are k, k+1, … in that order. -/
def Memory.wfFrom (k : Nat) : Memory → Bool
  | [] => true
  | c :: cs => c.1 = k && Memory.wfFrom (k + 1) cs

/-- The canonical form (R40): the addresses are exactly 0 to len-1, strictly rising; so equal streams
are equal data. No address outside is listed, and one not listed has no value. -/
def Memory.wf (m : Memory) : Bool := Memory.wfFrom 0 m

/-- `len` (R40). -/
def Memory.len (m : Memory) : Nat := m.length

/-- `ObjByte(a)` (R40): no value where the address does not exist (log 5). -/
def Memory.readByte : Memory → Nat → Option Byte
  | [], _ => none
  | c :: cs, a => if c.1 = a then some c.2 else Memory.readByte cs a

/-- The offset of the word area (R48): 0 in RAW_LE, 8 in LEGACY_BE. -/
def wordBase : ObjFormat → Nat
  | .rawLE => 0
  | .legacyBE => 8

/-- The offset of word `k` (R42, R43, R49). -/
def wordOffset (fmt : ObjFormat) (k : Nat) : Nat := wordBase fmt + 4 * k

/-- The number of whole words of the word area (R44, R45). -/
def wholeWords (fmt : ObjFormat) (m : Memory) : Nat := (m.len - wordBase fmt) / 4

/-- The number of bytes of a trailing partial word (R44, R45). -/
def partialBytes (fmt : ObjFormat) (m : Memory) : Nat := (m.len - wordBase fmt) % 4

/-- Word `k` of the stream (R44, R45): no value if one of its bytes does not exist. -/
def readWord (fmt : ObjFormat) (m : Memory) (k : Nat) : Option Word :=
  match m.readByte (wordOffset fmt k), m.readByte (wordOffset fmt k + 1),
    m.readByte (wordOffset fmt k + 2), m.readByte (wordOffset fmt k + 3) with
  | some b0, some b1, some b2, some b3 => some (wordOfBytes fmt b0 b1 b2 b3)
  | _, _, _, _ => none

/-- The magic constant of LEGACY_BE, 4 bytes big-endian (R43). -/
def legacyMagic : List Byte := [0x00, 0xC0, 0xFF, 0xEE]

/-- The count field of LEGACY_BE: the number of words, 4 bytes big-endian (R43). -/
def legacyCount (n : Nat) : List Byte := wordBytes .legacyBE (BitVec.ofNat 32 n)

/-- What stands before the words (R42, R43). -/
def objectHeader : ObjFormat → Nat → List Byte
  | .rawLE, _ => []
  | .legacyBE, n => legacyMagic ++ legacyCount n

/-- The bytes SEQ writes for a program (R42, R43, R173). -/
def objectBytes (fmt : ObjFormat) (words : List Word) : List Byte :=
  objectHeader fmt words.length ++ words.flatMap (wordBytes fmt)

/-- The warning of a partial word, recorded at most once for a stream (R205). -/
def partialWarnings (fmt : ObjFormat) (m : Memory) : List Warning :=
  if partialBytes fmt m = 0 then [] else [.trailingPartialWord (partialBytes fmt m)]

/-- The count in a LEGACY_BE header (R45): its four bytes, 0 where they do not exist (they do, past
the length test). -/
def headerCount (m : Memory) : Nat :=
  match m.toBytes.drop 4 with
  | b0 :: b1 :: b2 :: b3 :: _ => (wordOfBytes .legacyBE b0 b1 b2 b3).toNat
  | _ => 0

/-- The header test of R45: at least 8 bytes and the right magic. -/
def headerGood (m : Memory) : Bool := 8 ≤ m.len && m.toBytes.take 4 = legacyMagic

/-- The checks of a read in the order of R45 and R208: header, trailing bytes, count; then the size
(R174). The warnings of the read, or the fatal condition. -/
def checkStream (cfg : Config) (m : Memory) : Except Failure (List Warning) :=
  let n := wholeWords cfg.objFormat m
  let sized : Except Failure (List Warning) :=
    if cfg.maxWords < n then .error .streamTooLarge
    else .ok (partialWarnings cfg.objFormat m)
  match cfg.objFormat with
  | .rawLE => sized
  | .legacyBE =>
    if headerGood m then
      if headerCount m = n then sized else .error (.countMismatch (headerCount m) n)
    else .error (.badHeader m.len)

/-- The stream with word `k` in place: the bytes before its offset (zeros where there were none), the
word's bytes, and the bytes after it. It stands for loading a program from outside (log 3). -/
def placeWord (fmt : ObjFormat) (m : Memory) (k : Nat) (w : Word) : Memory :=
  let bs := m.toBytes
  let off := wordOffset fmt k
  Memory.ofBytes (bs.take off ++ List.replicate (off - bs.length) 0 ++ wordBytes fmt w ++ bs.drop (off + 4))

end Sys2Proof.Machine
end

