-- ==== Sys2Proof/Machine/Operands.lean ====
section
/-! DEFINITION. The operand forms of a source line: REG (spec/30_encoding.md R78), IMM (R79) and MEM
(R80), each read from its token or refused with its condition. -/

namespace Sys2Proof.Machine

/-- The value of a decimal digit (R79 decdigit). -/
def decDigit? (c : Char) : Option Nat :=
  if '0' ≤ c ∧ c ≤ '9' then some (c.toNat - '0'.toNat) else none

/-- The value of a hex digit, in either case (R79 hexdigit). -/
def hexDigit? (c : Char) : Option Nat :=
  if '0' ≤ c ∧ c ≤ '9' then some (c.toNat - '0'.toNat)
  else if 'a' ≤ c ∧ c ≤ 'f' then some (c.toNat - 'a'.toNat + 10)
  else if 'A' ≤ c ∧ c ≤ 'F' then some (c.toNat - 'A'.toNat + 10)
  else none

/-- The digits read on from the value `acc`; none if some character is no digit. -/
def digitsFrom (base : Nat) (digit? : Char → Option Nat) (acc : Nat) : Text → Option Nat
  | [] => some acc
  | c :: cs =>
    match digit? c with
    | some d => digitsFrom base digit? (acc * base + d) cs
    | none => none

/-- One or more decimal digits, of any length, leading zeros allowed (R78, R79). -/
def decNumeral? (t : Text) : Option Nat := if t = [] then none else digitsFrom 10 decDigit? 0 t

/-- One or more hex digits (R79). -/
def hexNumeral? (t : Text) : Option Nat := if t = [] then none else digitsFrom 16 hexDigit? 0 t

/-- The magnitude of R79: hex after `0x` or `0X`, decimal otherwise. -/
def magnitude? : Text → Option Nat
  | '0' :: 'x' :: h => hexNumeral? h
  | '0' :: 'X' :: h => hexNumeral? h
  | t => decNumeral? t

/-- The integer an IMM token stands for (R79). -/
def immValue? : Text → Option Int
  | '+' :: m => (magnitude? m).map fun n : Nat => (n : Int)
  | '-' :: m => (magnitude? m).map fun n : Nat => -(n : Int)
  | m => (magnitude? m).map fun n : Nat => (n : Int)

/-- The numeral of a REG token: `x` and one or more decimal digits (R78). -/
def regNumeral? : Text → Option Nat
  | 'x' :: n => decNumeral? n
  | _ => none

/-- A REG operand: FE passes the numeral mod 32 (R78). -/
def readReg (token : Text) : Except LineError RegIndex :=
  match regNumeral? token with
  | some n => .ok (BitVec.ofNat 5 n)
  | none => .error ⟨.invalidRegister, token⟩

/-- An IMM operand: FE passes the value mod 65536 (R79). -/
def readImm (token : Text) : Except LineError Imm :=
  match immValue? token with
  | some v => .ok (BitVec.ofInt 16 v)
  | none => .error ⟨.invalidImmediate, token⟩

/-- The part of a MEM token before its `(` (R80). -/
def memImmPart (token : Text) : Text := token.takeWhile (· ≠ '(')

/-- The part of a MEM token between its parentheses (R80). -/
def memRegPart (token : Text) : Text := ((token.dropWhile (· ≠ '(')).drop 1).dropLast

/-- The shape of R80: exactly one `(`, exactly one `)`, the `)` last, both parts non-empty. -/
def memShape (token : Text) : Bool :=
  token.count '(' = 1 && token.count ')' = 1 && token.getLast? = some ')' &&
    memImmPart token ≠ [] && memRegPart token ≠ []

/-- A MEM operand: the shape first, then the immediate, then the register (R80, R207). -/
def readMem (token : Text) : Except LineError (Imm × RegIndex) :=
  if memShape token then
    match readImm (memImmPart token) with
    | .error e => .error e
    | .ok imm =>
      match readReg (memRegPart token) with
      | .error e => .error e
      | .ok r => .ok (imm, r)
  else .error ⟨.malformedMemoryOperand, token⟩

/-! The operand lists of R77, read left to right; the first failure is raised (R82). -/

/-- REG, REG, REG. -/
def readRegRegReg (a b c : Text) : Except LineError (RegIndex × RegIndex × RegIndex) :=
  match readReg a with
  | .error e => .error e
  | .ok x =>
    match readReg b with
    | .error e => .error e
    | .ok y =>
      match readReg c with
      | .error e => .error e
      | .ok z => .ok (x, y, z)

/-- REG, REG, IMM. -/
def readRegRegImm (a b c : Text) : Except LineError (RegIndex × RegIndex × Imm) :=
  match readReg a with
  | .error e => .error e
  | .ok x =>
    match readReg b with
    | .error e => .error e
    | .ok y =>
      match readImm c with
      | .error e => .error e
      | .ok z => .ok (x, y, z)

/-- REG, IMM. -/
def readRegImm (a b : Text) : Except LineError (RegIndex × Imm) :=
  match readReg a with
  | .error e => .error e
  | .ok x =>
    match readImm b with
    | .error e => .error e
    | .ok y => .ok (x, y)

/-- REG, MEM. -/
def readRegMem (a b : Text) : Except LineError (RegIndex × Imm × RegIndex) :=
  match readReg a with
  | .error e => .error e
  | .ok x =>
    match readMem b with
    | .error e => .error e
    | .ok (imm, y) => .ok (x, imm, y)

end Sys2Proof.Machine
end

