-- ==== Sys2Proof/Machine/FrontEnd.lean ====
section
/-! DEFINITION. FE, the text front end (spec/30_encoding.md R75 to R82): one source line to a token
record, Skip or a condition. -/

namespace Sys2Proof.Machine

/-- Whitespace is space and tab (R75). -/
def isBlank (c : Char) : Bool := c = ' ' || c = '\t'

/-- The text without trailing whitespace. -/
def stripRight (t : Text) : Text := (t.reverse.dropWhile isBlank).reverse

/-- The text without leading and trailing whitespace (R75, R76). -/
def strip (t : Text) : Text := stripRight (t.dropWhile isBlank)

/-- One carriage return at the end of the line is removed (R75 step 1). -/
def dropCR (t : Text) : Text := if t.getLast? = some '\r' then t.dropLast else t

/-- What R75 leaves of a line: final CR, comment and outer whitespace are gone, in that order. -/
def preprocess (line : Text) : Text := strip ((dropCR line).takeWhile (· ≠ '#'))

/-- The pieces of a text between separators; always at least one piece. -/
def splitAtChar (sep : Char) : Text → List Text
  | [] => [[]]
  | c :: cs =>
    if c = sep then [] :: splitAtChar sep cs
    else
      match splitAtChar sep cs with
      | [] => [[c]]
      | p :: ps => (c :: p) :: ps

/-- The longest prefix without whitespace (R76). -/
def mnemonicToken (t : Text) : Text := t.takeWhile (!isBlank ·)

/-- What stands after the mnemonic, stripped (R76). -/
def operandText (t : Text) : Text := strip (t.dropWhile (!isBlank ·))

/-- The operand tokens: none for an empty text, else the stripped pieces between commas (R76). -/
def operandTokens (rest : Text) : List Text :=
  if rest = [] then [] else (splitAtChar ',' rest).map strip

/-- The mnemonics of R77 in the order of their selectors. -/
def mnemonics : List Mnemonic :=
  [.halt, .add, .addi, .bne, .mul, .lui, .lw, .sw, .blt, .slli, .sub]

/-- The mnemonic a token names; case-sensitive (R77). -/
def mnemonic? (token : Text) : Option Mnemonic := mnemonics.find? fun m => m.text = token

/-- The operand kinds of a mnemonic in text order (R77); their number is its count. -/
def operandKinds : Mnemonic → List OperandKind
  | .halt => []
  | .add | .mul | .sub => [.reg, .reg, .reg]
  | .addi | .bne | .blt | .slli => [.reg, .reg, .imm]
  | .lui => [.reg, .imm]
  | .lw | .sw => [.reg, .mem]

/-- The condition a token raises as an operand of a kind, if any (R78, R79, R80). -/
def operandError? : OperandKind → Text → Option LineError
  | .reg, t => match readReg t with | .error e => some e | .ok _ => none
  | .imm, t => match readImm t with | .error e => some e | .ok _ => none
  | .mem, t => match readMem t with | .error e => some e | .ok _ => none

/-- The token record of operands read as REG, REG, REG and bound to rd, rs1, rs2 (R81). -/
def tokRegRegReg (sel : Opcode) (a b c : Text) : LineResult :=
  match readRegRegReg a b c with
  | .ok (rd, rs1, rs2) => .tok ⟨sel, rd, rs1, rs2, 0⟩
  | .error e => .failed e

/-- REG, REG, IMM bound to rd, rs1, imm: addi, slli (R81). -/
def tokRegRegImm (sel : Opcode) (a b c : Text) : LineResult :=
  match readRegRegImm a b c with
  | .ok (rd, rs1, imm) => .tok ⟨sel, rd, rs1, 0, imm⟩
  | .error e => .failed e

/-- REG, REG, IMM bound to rs1, rs2, imm: bne, blt (R81). -/
def tokBranch (sel : Opcode) (a b c : Text) : LineResult :=
  match readRegRegImm a b c with
  | .ok (rs1, rs2, imm) => .tok ⟨sel, 0, rs1, rs2, imm⟩
  | .error e => .failed e

/-- REG, IMM bound to rd, imm: lui (R81). -/
def tokRegImm (sel : Opcode) (a b : Text) : LineResult :=
  match readRegImm a b with
  | .ok (rd, imm) => .tok ⟨sel, rd, 0, 0, imm⟩
  | .error e => .failed e

/-- REG, MEM bound to rd, imm(rs1): lw (R81). -/
def tokLoad (sel : Opcode) (a b : Text) : LineResult :=
  match readRegMem a b with
  | .ok (rd, imm, rs1) => .tok ⟨sel, rd, rs1, 0, imm⟩
  | .error e => .failed e

/-- REG, MEM bound to rs2, imm(rs1): sw (R81). -/
def tokStore (sel : Opcode) (a b : Text) : LineResult :=
  match readRegMem a b with
  | .ok (rs2, imm, rs1) => .tok ⟨sel, 0, rs1, rs2, imm⟩
  | .error e => .failed e

/-- The operands of a mnemonic read and bound (R77, R81). FE tests their number first (R82); any other
number of them would be E_OPERAND_COUNT here too. -/
def bindOperands (m : Mnemonic) (ops : List Text) : LineResult :=
  match m, ops with
  | .halt, [] => .tok ⟨m.opcode, 0, 0, 0, 0⟩
  | .add, [a, b, c] => tokRegRegReg m.opcode a b c
  | .addi, [a, b, c] => tokRegRegImm m.opcode a b c
  | .bne, [a, b, c] => tokBranch m.opcode a b c
  | .mul, [a, b, c] => tokRegRegReg m.opcode a b c
  | .lui, [a, b] => tokRegImm m.opcode a b
  | .lw, [a, b] => tokLoad m.opcode a b
  | .sw, [a, b] => tokStore m.opcode a b
  | .blt, [a, b, c] => tokBranch m.opcode a b c
  | .slli, [a, b, c] => tokRegRegImm m.opcode a b c
  | .sub, [a, b, c] => tokRegRegReg m.opcode a b c
  | _, _ => .failed ⟨.operandCount, m.text⟩

/-- FE on what preprocessing left, in the order of R82: mnemonic, empty operand, count, operands. -/
def frontEndStripped (t : Text) : LineResult :=
  if t = [] then .skip
  else
    match mnemonic? (mnemonicToken t) with
    | none => .failed ⟨.unknownMnemonic, mnemonicToken t⟩
    | some m =>
      let rest := operandText t
      if [] ∈ operandTokens rest then .failed ⟨.malformedOperandList, rest⟩
      else if (operandTokens rest).length ≠ (operandKinds m).length then
        .failed ⟨.operandCount, m.text⟩
      else bindOperands m (operandTokens rest)

/-- FE (R29, R82). -/
def frontEnd (line : Text) : LineResult := frontEndStripped (preprocess line)

end Sys2Proof.Machine
end

