-- ==== Sys2Proof/Machine/Render.lean ====
section
/-! DEFINITION. TXT and the listing line (spec/30_encoding.md R83, R84; 44_program.md R176). -/

namespace Sys2Proof.Machine

/-- The character of a decimal digit. -/
def decChar (d : Nat) : Char := Char.ofNat (48 + d)

/-- The decimal digits of `n` in front of `acc`, by at most `fuel` digits. -/
def decDigitsOnto : Nat → Nat → Text → Text
  | 0, _, acc => acc
  | fuel + 1, n, acc =>
    if n / 10 = 0 then decChar (n % 10) :: acc
    else decDigitsOnto fuel (n / 10) (decChar (n % 10) :: acc)

/-- The decimal digits of a natural number, no leading zero, 0 as `0` (R84). -/
def decNat (n : Nat) : Text := decDigitsOnto (n + 1) n []

/-- `dec(n)` of R84: `-` and the digits of `-n` for a negative n. -/
def decInt : Int → Text
  | .ofNat n => decNat n
  | .negSucc n => '-' :: decNat (n + 1)

/-- `R(v)` of R83. -/
def regText (r : RegIndex) : Text := 'x' :: decNat r.toNat

/-- `I(v)` of R83: the immediate as a signed 16-bit value (R9 sint16, R70). -/
def immText (imm : Imm) : Text := decInt imm.toInt

/-- The mnemonic, one space, and the operands with a comma and a space between them (R83). -/
def lineText (m : Mnemonic) (ops : List Text) : Text :=
  m.text ++ ' ' :: [',', ' '].intercalate ops

/-- `imm(reg)` as TXT prints it (R83). -/
def memText (imm : Imm) (base : RegIndex) : Text := immText imm ++ '(' :: regText base ++ [')']

/-- TXT (R28, R83): the record's MNEMONIC_TEXT; every kind DEC does not give a mnemonic prints
UNKNOWN_TEXT. -/
def txt (unknownText : Text) (r : DecRecord) : Text :=
  match r.kind.toNat with
  | 0 => Mnemonic.text .halt
  | 1 => lineText .add [regText r.rd, regText r.rs1, regText r.rs2]
  | 2 => lineText .addi [regText r.rd, regText r.rs1, immText r.imm]
  | 3 => lineText .bne [regText r.rs1, regText r.rs2, immText r.imm]
  | 4 => lineText .mul [regText r.rd, regText r.rs1, regText r.rs2]
  | 5 => lineText .lui [regText r.rd, immText r.imm]
  | 6 => lineText .lw [regText r.rd, memText r.imm r.rs1]
  | 7 => lineText .sw [regText r.rs2, memText r.imm r.rs1]
  | 8 => lineText .blt [regText r.rs1, regText r.rs2, immText r.imm]
  | 9 => lineText .slli [regText r.rd, regText r.rs1, immText r.imm]
  | 10 => lineText .sub [regText r.rd, regText r.rs1, regText r.rs2]
  | _ => unknownText

/-- An uppercase hex digit. -/
def hexChar (d : Nat) : Char := if d < 10 then Char.ofNat (48 + d) else Char.ofNat (55 + d)

/-- The `digits` low hex digits of `n`, most significant first. -/
def hexDigits : Nat → Nat → Text
  | 0, _ => []
  | digits + 1, n => hexDigits digits (n / 16) ++ [hexChar (n % 16)]

/-- The text of an ASCII string. -/
def asciiText (codes : AsciiCodes) : Text := codes.map fun c => Char.ofNat c.val

/-- LISTING_HEX (R7, R176): 8 uppercase digits by default, any other function into ASCII otherwise. -/
def listingHex : HexStyle → Word → Text
  | .upper8, w => hexDigits 8 w.toNat
  | .custom n, w => asciiText (Config.customListingHex n w)

/-- The listing address of the word at an index, as a 32-bit value (R177; exact under MAX_WORDS,
R179; log 11). -/
def listingAddress (index : Nat) : Word := BitVec.ofNat 32 (4 * index)

/-- `LINE(a, w, t)` of R176. -/
def listingLine (style : HexStyle) (a w : Word) (t : Text) : Text :=
  listingHex style a ++ [':', ' '] ++ listingHex style w ++ [' ', ' '] ++ t

/-- The listing as one text: each line ends with one LF (R176). -/
def listingText (lines : List Text) : Text := lines.flatMap (· ++ ['\n'])

end Sys2Proof.Machine
end

