-- ==== Sys2Proof/Machine/Ops.lean ====
section
/-! DEFINITION. What SEQ does to its state: the updates of a run, taking a fatal condition (spec/60_exceptions.md
R210), and the two loop bodies of 44_program.md R170 and R174 that every instruction's meaning is
written over. -/

namespace Sys2Proof.Machine

/-! ### The start of a run (R231) -/

/-- An assembly run at its start (R30, R231): the configuration, the text and the environment are the
run's input; nothing is kept of an earlier run. -/
def beginAssembly (config : Config) (env : Environment) (text : Text) : State :=
  { State.reset with config := config, env := env, mode := .assembly, text := text }

/-- A disassembly run at its start (R31, R231). -/
def beginDisassembly (config : Config) (env : Environment) (stream : Memory) : State :=
  { State.reset with config := config, env := env, mode := .disassembly, stream := stream }

/-! ### The input of a run -/

/-- The lines of the source text, split at every LF; a final empty piece is a line (R170). -/
def State.lines (s : State) : List Text := splitAtChar '\n' s.text

/-- The line that `line_no` numbers, counting from 1 (R30, R202). -/
def State.currentLine (s : State) : Option Text := s.lines[s.lineNo - 1]?

/-- The word at `index` (R31, R44, R45). -/
def State.currentWord (s : State) : Option Word := readWord s.config.objFormat s.stream s.index

/-- The number of words the run's stream holds. -/
def State.wordCount (s : State) : Nat := wholeWords s.config.objFormat s.stream

/-! ### The updates of a run -/

/-- TAKING A FATAL CONDITION (R210): `status` becomes FAILED with its record, what was collected is
discarded, and the run has stopped. `line_no` and `index` stay where the condition arose (log 13).
There is no return from it (R211). -/
def State.failRun (s : State) (f : Failure) : State :=
  { s with status := .failed f, words := [], listing := [], warnings := [] }

/-- A fatal condition of the current line, with its token (R202). -/
def State.failLine (s : State) (c : LineCondition) (token : Text) : State :=
  s.failRun (.atLine c s.lineNo token)

/-- `emit(w)` and the next line (R10, R170). -/
def State.emit (s : State) (w : Word) : State :=
  { s with words := s.words ++ [w], lineNo := s.lineNo + 1 }

/-- A line that gives no word (R170). -/
def State.skipLine (s : State) : State := { s with lineNo := s.lineNo + 1 }

/-- A non-fatal condition is recorded and the run goes on (R10, R204, R205). -/
def State.warn (s : State) (ws : List Warning) : State := { s with warnings := s.warnings ++ ws }

/-- The listing line of a word with this text (R176), and the next index. -/
def State.list (s : State) (w : Word) (t : Text) : State :=
  { s with
    listing := s.listing ++ [listingLine s.config.listingHex (listingAddress s.index) w t]
    index := s.index + 1 }

/-- The run's input is open and its loop begins. -/
def State.startLoop (s : State) : State := { s with phase := .working }

/-- DONE (R178). -/
def State.finish (s : State) : State := { s with status := .done }

/-- SEQ writes `words` as an object byte stream (R173; log 14). -/
def State.writeObject (s : State) : State :=
  { s with stream := Memory.ofBytes (objectBytes s.config.objFormat s.words) }

/-- The output of a run: none while it is RUNNING (R178). -/
def State.output (s : State) : Option RunOutput :=
  match s.status, s.mode with
  | .running, _ => none
  | .failed f, _ => some (.failure f)
  | .done, .assembly => some (.program s.words s.stream)
  | .done, .disassembly => some (.listing (listingText s.listing) s.warnings)

/-! ### The loop bodies -/

/-- One token record in an assembly run (R170): ENC, then the size, then `emit`. The two conditions
carry the line as their token. -/
def assembleTok (t : Tok) (s : State) : Host.Outcome State Fault Refusal :=
  match s.currentLine with
  | none => .fault (.outsideSource s.lineNo)
  | some line =>
    if (enc t).ok = false then .next (s.failLine .unrecognizedSelector line)
    else if s.words.length = s.config.maxWords then .next (s.failLine .programTooLarge line)
    else .next (s.emit (enc t).word)

/-- One decoded record in a disassembly run (R174): the warning of an unknown word (R204), then the
listing line with TXT's text. -/
def State.listRecord (s : State) (r : DecRecord) : State :=
  (s.warn (if r.isUnknown then [.unknownInstruction s.index r.raw] else [])).list r.raw
    (txt s.config.unknownText r)

/-- The word at `index` listed with the record it gives (R174). -/
def disassembleWord (record : Word → DecRecord) (s : State) : Host.Outcome State Fault Refusal :=
  match s.currentWord with
  | none => .fault (.outsideStream (wordOffset s.config.objFormat s.index))
  | some w => .next (s.listRecord (record w))

/-- What the block does with one instruction (log 1): in an assembly run its token record goes to ENC
and its word is emitted; in a disassembly run its record goes to TXT and its line is listed. Nothing
is done after the end of a run (R211). -/
def processInstr (t : Tok) (record : Word → DecRecord) (s : State) :
    Host.Outcome State Fault Refusal :=
  match s.status with
  | .running =>
    match s.mode with
    | .assembly => assembleTok t s
    | .disassembly => disassembleWord record s
  | _ => .fault .runEnded

end Sys2Proof.Machine
end

