-- ==== Sys2Proof/Machine/FormatA.lean ====
section
/-! DEFINITION. The format A instructions: add, mul, sub (spec/40_format_a.md). What the block does with each:
its encode rule in an assembly run, its decode rule in a disassembly run; nothing is computed (R5). -/

namespace Sys2Proof.Machine

/-- add: R100, R101. -/
def execAdd (rd rs1 rs2 : RegIndex) (s : State) : Host.Outcome State Fault Refusal :=
  processInstr (Instr.add rd rs1 rs2).tok (recAdd rd rs1 rs2) s

/-- mul: R102, R103. -/
def execMul (rd rs1 rs2 : RegIndex) (s : State) : Host.Outcome State Fault Refusal :=
  processInstr (Instr.mul rd rs1 rs2).tok (recMul rd rs1 rs2) s

/-- sub: R104, R105. -/
def execSub (rd rs1 rs2 : RegIndex) (s : State) : Host.Outcome State Fault Refusal :=
  processInstr (Instr.sub rd rs1 rs2).tok (recSub rd rs1 rs2) s

end Sys2Proof.Machine
end

