-- ==== Sys2Proof/Machine/FormatB.lean ====
section
/-! DEFINITION. The format B instructions: addi, lw, slli, lui (spec/41_format_b.md). What the block does with
each: its encode rule in an assembly run, its decode rule in a disassembly run (R5). -/

namespace Sys2Proof.Machine

/-- addi: R120, R121. -/
def execAddi (rd rs1 : RegIndex) (imm : Imm) (s : State) : Host.Outcome State Fault Refusal :=
  processInstr (Instr.addi rd rs1 imm).tok (recAddi rd rs1 imm) s

/-- lw: R122, R123. -/
def execLw (rd : RegIndex) (imm : Imm) (rs1 : RegIndex) (s : State) :
    Host.Outcome State Fault Refusal :=
  processInstr (Instr.lw rd imm rs1).tok (recLw rd imm rs1) s

/-- slli: R124, R125. -/
def execSlli (rd rs1 : RegIndex) (imm : Imm) (s : State) : Host.Outcome State Fault Refusal :=
  processInstr (Instr.slli rd rs1 imm).tok (recSlli rd rs1 imm) s

/-- lui: R126, R127. -/
def execLui (rd : RegIndex) (imm : Imm) (s : State) : Host.Outcome State Fault Refusal :=
  processInstr (Instr.lui rd imm).tok (recLui rd imm) s

end Sys2Proof.Machine
end

