-- ==== Sys2Proof/Machine/FormatC.lean ====
section
/-! DEFINITION. The format C instructions: bne, sw, blt (spec/42_format_c.md). What the block does with each:
its encode rule in an assembly run, its decode rule in a disassembly run (R5). -/

namespace Sys2Proof.Machine

/-- bne: R140, R141. -/
def execBne (rs1 rs2 : RegIndex) (imm : Imm) (s : State) : Host.Outcome State Fault Refusal :=
  processInstr (Instr.bne rs1 rs2 imm).tok (recBne rs1 rs2 imm) s

/-- sw: R142, R143. -/
def execSw (rs2 : RegIndex) (imm : Imm) (rs1 : RegIndex) (s : State) :
    Host.Outcome State Fault Refusal :=
  processInstr (Instr.sw rs2 imm rs1).tok (recSw rs2 imm rs1) s

/-- blt: R144, R145. -/
def execBlt (rs1 rs2 : RegIndex) (imm : Imm) (s : State) : Host.Outcome State Fault Refusal :=
  processInstr (Instr.blt rs1 rs2 imm).tok (recBlt rs1 rs2 imm) s

end Sys2Proof.Machine
end

