-- ==== Sys2Proof/Machine/Halt.lean ====
section
/-! DEFINITION. halt (spec/43_halt_unknown.md): an encoding only; the block does not stop on it (R214). -/

namespace Sys2Proof.Machine

/-- halt: R160, R161. -/
def execHalt (s : State) : Host.Outcome State Fault Refusal :=
  processInstr Instr.halt.tok recHalt s

end Sys2Proof.Machine
end

