-- ==== Sys2Proof/Machine/Dispatch.lean ====
section
/-! DEFINITION. One arm per instruction; each is one call of its meaning. -/

namespace Sys2Proof.Machine

/-- The meaning of an instruction: what the block does with it in the run it is in. -/
def exec (i : Instr) (s : State) : Host.Outcome State Fault Refusal :=
  match i with
  | .halt => Sys2Proof.Machine.execHalt s
  | .add rd rs1 rs2 => Sys2Proof.Machine.execAdd rd rs1 rs2 s
  | .addi rd rs1 imm => Sys2Proof.Machine.execAddi rd rs1 imm s
  | .bne rs1 rs2 imm => Sys2Proof.Machine.execBne rs1 rs2 imm s
  | .mul rd rs1 rs2 => Sys2Proof.Machine.execMul rd rs1 rs2 s
  | .lui rd imm => Sys2Proof.Machine.execLui rd imm s
  | .lw rd imm rs1 => Sys2Proof.Machine.execLw rd imm rs1 s
  | .sw rs2 imm rs1 => Sys2Proof.Machine.execSw rs2 imm rs1 s
  | .blt rs1 rs2 imm => Sys2Proof.Machine.execBlt rs1 rs2 imm s
  | .slli rd rs1 imm => Sys2Proof.Machine.execSlli rd rs1 imm s
  | .sub rd rs1 rs2 => Sys2Proof.Machine.execSub rd rs1 rs2 s

end Sys2Proof.Machine
end

