-- ==== Sys2Proof/Machine/Sequencer.lean ====
section
/-! DEFINITION. SEQ's two runs, one step at a time (spec/44_program.md R170, R174): opening the input,
one line or one word, and the end (log 2). -/

namespace Sys2Proof.Machine

/-- The end of a run that failed nowhere (R173, R178). The environment may still refuse the output
(R206, log 9): then there is none. -/
def endAssembly (s : State) : State :=
  if s.env.writeFails then s.failRun .io else s.writeObject.finish

/-- The end of a disassembly run that failed nowhere (R178; R206, log 9). -/
def endDisassembly (s : State) : State :=
  if s.env.writeFails then s.failRun .io else s.finish

/-- The input of the run is opened. An assembly run has only to have its text; a disassembly run
checks its stream, which may warn or fail (R44, R45, R174). -/
def openRun (s : State) : State :=
  if s.env.inputMissing then s.failRun .io
  else
    match s.mode with
    | .assembly => s.startLoop
    | .disassembly =>
      match checkStream s.config s.stream with
      | .error f => s.failRun f
      | .ok ws => (s.warn ws).startLoop

/-- FE's result for the current line is carried out (R170). A token record whose selector names an
instruction is that instruction; any other goes to ENC, which reports it (R164). -/
def assembleResult (r : LineResult) (s : State) : Host.Outcome State Fault Refusal :=
  match r with
  | .skip => .next s.skipLine
  | .failed e => .next (s.failLine e.code e.token)
  | .tok t =>
    match t.instr? with
    | some i => exec i s
    | none => assembleTok t s

/-- One line of an assembly run, or its end when no line is left (R170). -/
def assembleStep (s : State) : Host.Outcome State Fault Refusal :=
  match s.currentLine with
  | some line => assembleResult (frontEnd line) s
  | none => .next (endAssembly s)

/-- One word of a disassembly run, or its end when no whole word is left (R174). A word that is no
instruction is listed with the unknown record, and the run goes on (R175; log 15). -/
def disassembleStep (s : State) : Host.Outcome State Fault Refusal :=
  if s.index < s.wordCount then
    match s.currentWord with
    | none => .fault (.outsideStream (wordOffset s.config.objFormat s.index))
    | some w =>
      match decode s.config.strictDecode w with
      | .ok i => exec i s
      | .error _ => disassembleWord recUnknown s
  else .next (endDisassembly s)

/-- One step of a run that is RUNNING. -/
def runStep (s : State) : Host.Outcome State Fault Refusal :=
  match s.phase with
  | .opening => .next (openRun s)
  | .working =>
    match s.mode with
    | .assembly => assembleStep s
    | .disassembly => disassembleStep s

/-- The state in which the word `w` stands where a disassembly run in its loop reads its next word. -/
def State.withNextWord (s : State) (w : Word) : State :=
  { s with
    mode := .disassembly
    phase := .working
    status := .running
    stream := placeWord s.config.objFormat s.stream s.index w }

end Sys2Proof.Machine
end

