-- ==== Sys2Proof/Machine/Step.lean ====
section
/-! DEFINITION. One step of the machine, and the placing of an instruction where the next step fetches. -/

namespace Sys2Proof.Machine

/-- One step: of the run while it is RUNNING; a run that has ended stays as it is (R178, R211; log 4). -/
def step (s : State) : Host.Outcome State Fault Refusal :=
  match s.status with
  | .running => runStep s
  | _ => .next s

/-- `s` with the word `w` of `nbits` bits as the next word of a disassembly run (log 3): the run is in
its loop, and the stream holds the word at `index`. -/
def State.withFetchWord (s : State) (nbits w : Nat) : State :=
  s.withNextWord (BitVec.ofNat 32 (w % 2 ^ nbits))

end Sys2Proof.Machine
end

