-- ==== Sys2Proof/Machine/Program.lean ====
section
/-! DEFINITION. The two runs as functions of their input, written from the pseudocode of
spec/44_program.md R170 and R174 and independent of the step: what a claim compares the machine with. -/

namespace Sys2Proof.Machine

/-- The loop of R170 from line number `lineNo` with `words` emitted so far. -/
def assembleLines (cfg : Config) (lineNo : Nat) (words : List Word) :
    List Text → Except Failure (List Word)
  | [] => .ok words
  | line :: lines =>
    match frontEnd line with
    | .skip => assembleLines cfg (lineNo + 1) words lines
    | .failed e => .error (.atLine e.code lineNo e.token)
    | .tok t =>
      if (enc t).ok = false then .error (.atLine .unrecognizedSelector lineNo line)
      else if words.length = cfg.maxWords then .error (.atLine .programTooLarge lineNo line)
      else assembleLines cfg (lineNo + 1) (words ++ [(enc t).word]) lines

/-- ASSEMBLE of R170: the words of a source text, or the failure record. -/
def assemble (cfg : Config) (text : Text) : Except Failure (List Word) :=
  assembleLines cfg 1 [] (splitAtChar '\n' text)

/-- The words a stream holds, in order (R44, R45). -/
def streamWords (fmt : ObjFormat) (m : Memory) : List Word :=
  (List.range (wholeWords fmt m)).filterMap (readWord fmt m)

/-- The listing line of the word `w` at index `k` (R174, R176, R177). -/
def wordLine (cfg : Config) (k : Nat) (w : Word) : Text :=
  listingLine cfg.listingHex (listingAddress k) w (txt cfg.unknownText (dec cfg.strictDecode w))

/-- The warning of the word `w` at index `k`, if it is unknown (R204). -/
def wordWarnings (cfg : Config) (k : Nat) (w : Word) : List Warning :=
  if (dec cfg.strictDecode w).isUnknown then [.unknownInstruction k w] else []

/-- DISASSEMBLE of R174: the listing and the warnings of a stream, or the failure. -/
def disassemble (cfg : Config) (m : Memory) : Except Failure (List Text × List Warning) :=
  match checkStream cfg m with
  | .error f => .error f
  | .ok ws =>
    let words := streamWords cfg.objFormat m
    .ok (words.mapIdx (wordLine cfg), ws ++ (words.mapIdx (wordWarnings cfg)).flatten)

end Sys2Proof.Machine

namespace Sys2Proof

/-- The canonical text of an instruction (R83, R85): what TXT prints of its record. -/
def Instr.text (i : Instr) : Text := Machine.txt [] (i.record 0)

end Sys2Proof
end

