-- ==== Sys2Proof/Safety.lean ====
section
/-! DEFINITION. What a good state and a safe step are, in the terms the claims use. -/

namespace Sys2Proof.Machine

/-- The invariant of a run. -/
structure State.Inv (s : State) : Prop where
  /-- The configuration is one of R7. -/
  config_wf : s.config.wellFormed = true
  /-- The stream keeps its canonical form (R40). -/
  stream_wf : Memory.wf s.stream = true
  /-- `line_no` numbers a line of the text, or the place after the last (R30, R202). -/
  line_pos : 1 ≤ s.lineNo
  line_le : s.lineNo ≤ s.lines.length + 1
  /-- A program has at most MAX_WORDS words (R179). -/
  words_le : s.words.length ≤ s.config.maxWords
  /-- Before the input is open nothing is collected (R30, R31). -/
  opening_empty : s.phase = .opening →
    s.words = [] ∧ s.listing = [] ∧ s.warnings = [] ∧ s.index = 0
  /-- A failed run has no output (R171, R178, R210). -/
  failed_empty : ∀ f, s.status = .failed f → s.words = [] ∧ s.listing = [] ∧ s.warnings = []
  /-- One listing line for every word up to `index` (R175), which stays within the stream. -/
  listing_length : s.mode = .disassembly → (∀ f, s.status ≠ .failed f) → s.listing.length = s.index
  index_le : s.mode = .disassembly → s.index ≤ s.wordCount
  /-- The listing is ASCII (R176). -/
  listing_ascii : ∀ line ∈ s.listing, Text.isAscii line = true
  /-- The one direction of a run (R53): an assembly run lists nothing, a disassembly run emits nothing. -/
  assembly_lists_nothing : s.mode = .assembly → s.listing = [] ∧ s.warnings = [] ∧ s.index = 0
  disassembly_emits_nothing : s.mode = .disassembly → s.words = [] ∧ s.lineNo = 1

/-- `k` steps of the machine, stopping at the first fault or refusal. -/
def run : Nat → State → Host.Outcome State Fault Refusal
  | 0, s => .next s
  | k + 1, s =>
    match step s with
    | .next t => run k t
    | .fault r => .fault r
    | .refused r => .refused r

/-- A step from the state is safe: it answers a next state, no fault and no refusal. -/
def State.StepsOn (s : State) : Prop := ∃ t, step s = .next t

end Sys2Proof.Machine
end

