-- ==== Sys2Proof/Certificates/Slice0/Obligations.lean ====
section
/-! DEFINITION. The statements for the provers (OBLIGATIONS.json lists them). First the predicates
they share, then one `def Obligations.<Name> : Prop` each. -/

namespace Sys2Proof.Claims

open Sys2Proof.Machine

/-- An assembly run that is RUNNING and whose current line is `line`. -/
structure AtLine (s : State) (line : Text) : Prop where
  status : s.status = .running
  mode : s.mode = .assembly
  current : s.currentLine = some line

/-- A disassembly run that is RUNNING and whose word at `index` is `w`. -/
structure AtWord (s : State) (w : Word) : Prop where
  status : s.status = .running
  mode : s.mode = .disassembly
  current : s.currentWord = some w

/-- The state is in its loop, on the word `w` of its stream. -/
structure ReadsWord (s : State) (w : Word) : Prop extends AtWord s w where
  phase : s.phase = .working
  whole : s.index < s.wordCount

/-- The state after a fatal condition (R210; that `line_no` and `index` stay is log 13). -/
def failedWith (s : State) (f : Failure) : State :=
  { s with status := .failed f, words := [], listing := [], warnings := [] }

/-- The state after a word has been emitted from the current line (R10, R170). -/
def afterEmit (s : State) (w : Word) : State :=
  { s with words := s.words ++ [w], lineNo := s.lineNo + 1 }

/-- The state after the word `w` has been listed with the text `t` (R174, R176). -/
def afterList (s : State) (w : Word) (t : Text) : State :=
  { s with
    listing := s.listing ++ [listingHex s.config.listingHex (BitVec.ofNat 32 (4 * s.index)) ++ ": ".toList ++
      listingHex s.config.listingHex w ++ "  ".toList ++ t]
    index := s.index + 1 }

/-- `"x" ++ dec(uint(r))` as the decode rules write a register. -/
def x (r : RegIndex) : Text := "x".toList ++ decNat r.toNat

/-- `dec(sint16(imm))` as the decode rules write an immediate. -/
def signed (imm : Imm) : Text := decInt imm.toInt

/-- A decimal numeral and its value: one or more digits, most significant first, leading zeros
allowed (R78, R79). -/
def IsDecimal (t : Text) (n : Nat) : Prop :=
  ∃ ds : List Nat, ds ≠ [] ∧ (∀ d ∈ ds, d < 10) ∧ t = ds.map Nat.digitChar ∧
    n = Nat.ofDigits 10 ds.reverse

/-- A hex numeral and its value: one or more digits in either case (R79). -/
def IsHex (t : Text) (n : Nat) : Prop :=
  ∃ ds : List Nat, ds ≠ [] ∧ (∀ d ∈ ds, d < 16) ∧
    List.Forall₂ (fun c d => c = Nat.digitChar d ∨ c = (Nat.digitChar d).toUpper) t ds ∧
    n = Nat.ofDigits 16 ds.reverse

/-- `magnitude` of R79 and its value. -/
def IsMagnitude (t : Text) (n : Nat) : Prop :=
  IsDecimal t n ∨ ∃ h, (t = '0' :: 'x' :: h ∨ t = '0' :: 'X' :: h) ∧ IsHex h n

/-- `imm` of R79 and its value. -/
def IsImmediate (t : Text) (v : Int) : Prop :=
  ∃ m n, IsMagnitude m n ∧ (v = n ∧ (t = m ∨ t = '+' :: m) ∨ v = -n ∧ t = '-' :: m)

/-- 8 uppercase hex digits, most significant first, and their value (R176). -/
def IsUpperHex8 (t : Text) (n : Nat) : Prop :=
  ∃ ds : List Nat, ds.length = 8 ∧ (∀ d ∈ ds, d < 16) ∧
    t = ds.map (fun d => "0123456789ABCDEF".toList.getD d '?') ∧ n = Nat.ofDigits 16 ds.reverse

/-- The shape of a MEM operand with its two parts (R80). -/
def IsMemShape (token imm reg : Text) : Prop :=
  imm ≠ [] ∧ reg ≠ [] ∧ '(' ∉ imm ∧ ')' ∉ imm ∧ '(' ∉ reg ∧ ')' ∉ reg ∧
    token = imm ++ '(' :: (reg ++ [')'])

end Sys2Proof.Claims

open Sys2Proof Sys2Proof.Machine Sys2Proof.Claims

/-! ### What each instruction does: the encode rules, in an assembly run -/

/-- Completion and result in an assembly run of add, mul, sub: the encode rules' word is emitted and
nothing else changes (40_format_a.md, the encode pseudocode; R170). -/
def Obligations.AssemblingFormatAEmitsItsWord : Prop :=
  ∀ (s : State) (line : Text) (rd rs1 rs2 : RegIndex), AtLine s line →
    s.words.length ≠ s.config.maxWords →
    exec (.add rd rs1 rs2) s = .next (afterEmit s ((0 : BitVec 11) ++ rs2 ++ rs1 ++ rd ++ (1 : BitVec 6))) ∧
    exec (.mul rd rs1 rs2) s = .next (afterEmit s ((0 : BitVec 11) ++ rs2 ++ rs1 ++ rd ++ (4 : BitVec 6))) ∧
    exec (.sub rd rs1 rs2) s = .next (afterEmit s ((0 : BitVec 11) ++ rs2 ++ rs1 ++ rd ++ (10 : BitVec 6)))

/-- The same of addi, lw, slli, lui (41_format_b.md, the encode pseudocode; R170). -/
def Obligations.AssemblingFormatBEmitsItsWord : Prop :=
  ∀ (s : State) (line : Text) (rd rs1 : RegIndex) (imm : Imm), AtLine s line →
    s.words.length ≠ s.config.maxWords →
    exec (.addi rd rs1 imm) s = .next (afterEmit s (imm ++ rs1 ++ rd ++ (2 : BitVec 6))) ∧
    exec (.lw rd imm rs1) s = .next (afterEmit s (imm ++ rs1 ++ rd ++ (6 : BitVec 6))) ∧
    exec (.slli rd rs1 imm) s = .next (afterEmit s (imm ++ rs1 ++ rd ++ (9 : BitVec 6))) ∧
    exec (.lui rd imm) s = .next (afterEmit s (imm ++ (0 : BitVec 5) ++ rd ++ (5 : BitVec 6)))

/-- The same of bne, sw, blt, each with its own order of the two register fields (42_format_c.md, the
encode pseudocode; R170). -/
def Obligations.AssemblingFormatCEmitsItsWord : Prop :=
  ∀ (s : State) (line : Text) (rs1 rs2 : RegIndex) (imm : Imm), AtLine s line →
    s.words.length ≠ s.config.maxWords →
    exec (.bne rs1 rs2 imm) s = .next (afterEmit s
      (imm.extractLsb 15 5 ++ rs1 ++ rs2 ++ imm.extractLsb 4 0 ++ (3 : BitVec 6))) ∧
    exec (.sw rs2 imm rs1) s = .next (afterEmit s
      (imm.extractLsb 15 5 ++ rs1 ++ rs2 ++ imm.extractLsb 4 0 ++ (7 : BitVec 6))) ∧
    exec (.blt rs1 rs2 imm) s = .next (afterEmit s
      (imm.extractLsb 15 5 ++ rs2 ++ rs1 ++ imm.extractLsb 4 0 ++ (8 : BitVec 6)))

/-- The same of halt: the all-zero word (43_halt_unknown.md, the encode pseudocode; R170). -/
def Obligations.AssemblingHaltEmitsTheZeroWord : Prop :=
  ∀ (s : State) (line : Text), AtLine s line → s.words.length ≠ s.config.maxWords →
    exec .halt s = .next (afterEmit s 0)

/-- In a program that already has MAX_WORDS words, every instruction ends the run with
E_PROGRAM_TOO_LARGE, the line's number and the line (44_program.md, ASSEMBLE). -/
def Obligations.EveryInstructionFailsAtTheSizeLimit : Prop :=
  ∀ (i : Instr) (s : State) (line : Text), AtLine s line → s.words.length = s.config.maxWords →
    exec i s = .next (failedWith s (.atLine .programTooLarge s.lineNo line))

/-! ### What each instruction does: the decode rules, in a disassembly run -/

/-- Completion and result in a disassembly run of add, mul, sub: the listing line with the decode
rules' text, the next index, and nothing else (40_format_a.md, the TXT lines; R174). -/
def Obligations.ListingFormatAPrintsItsText : Prop :=
  ∀ (s : State) (w : Word) (rd rs1 rs2 : RegIndex), AtWord s w →
    exec (.add rd rs1 rs2) s = .next (afterList s w
      ("add ".toList ++ x rd ++ ", ".toList ++ x rs1 ++ ", ".toList ++ x rs2)) ∧
    exec (.mul rd rs1 rs2) s = .next (afterList s w
      ("mul ".toList ++ x rd ++ ", ".toList ++ x rs1 ++ ", ".toList ++ x rs2)) ∧
    exec (.sub rd rs1 rs2) s = .next (afterList s w
      ("sub ".toList ++ x rd ++ ", ".toList ++ x rs1 ++ ", ".toList ++ x rs2))

/-- The same of addi, lw, slli, lui (41_format_b.md, the TXT lines; R174). -/
def Obligations.ListingFormatBPrintsItsText : Prop :=
  ∀ (s : State) (w : Word) (rd rs1 : RegIndex) (imm : Imm), AtWord s w →
    exec (.addi rd rs1 imm) s = .next (afterList s w
      ("addi ".toList ++ x rd ++ ", ".toList ++ x rs1 ++ ", ".toList ++ signed imm)) ∧
    exec (.lw rd imm rs1) s = .next (afterList s w
      ("lw ".toList ++ x rd ++ ", ".toList ++ signed imm ++ "(".toList ++ x rs1 ++ ")".toList)) ∧
    exec (.slli rd rs1 imm) s = .next (afterList s w
      ("slli ".toList ++ x rd ++ ", ".toList ++ x rs1 ++ ", ".toList ++ signed imm)) ∧
    exec (.lui rd imm) s = .next (afterList s w
      ("lui ".toList ++ x rd ++ ", ".toList ++ signed imm))

/-- The same of bne, sw, blt (42_format_c.md, the TXT lines; R174). -/
def Obligations.ListingFormatCPrintsItsText : Prop :=
  ∀ (s : State) (w : Word) (rs1 rs2 : RegIndex) (imm : Imm), AtWord s w →
    exec (.bne rs1 rs2 imm) s = .next (afterList s w
      ("bne ".toList ++ x rs1 ++ ", ".toList ++ x rs2 ++ ", ".toList ++ signed imm)) ∧
    exec (.sw rs2 imm rs1) s = .next (afterList s w
      ("sw ".toList ++ x rs2 ++ ", ".toList ++ signed imm ++ "(".toList ++ x rs1 ++ ")".toList)) ∧
    exec (.blt rs1 rs2 imm) s = .next (afterList s w
      ("blt ".toList ++ x rs1 ++ ", ".toList ++ x rs2 ++ ", ".toList ++ signed imm))

/-- The same of halt (43_halt_unknown.md, the TXT line; R174): the run goes on after it. -/
def Obligations.ListingHaltPrintsItsText : Prop :=
  ∀ (s : State) (w : Word), AtWord s w → exec .halt s = .next (afterList s w "halt".toList)

/-! ### Every instruction: frame, stops, fetch -/

/-- What an instruction leaves unchanged when it answers a next state: the configuration, the
environment, the run, its input, every byte of the stream; in an assembly run everything of a
disassembly run, and the other way round (10_state.md; 20_memory.md, sections 1 and 4). -/
def Obligations.EveryInstructionKeepsTheRest : Prop :=
  ∀ (i : Instr) (s t : State), exec i s = .next t →
    t.config = s.config ∧ t.env = s.env ∧ t.mode = s.mode ∧ t.phase = s.phase ∧ t.text = s.text ∧
    t.stream = s.stream ∧ (∀ a, Memory.readByte t.stream a = Memory.readByte s.stream a) ∧
    (s.mode = .assembly → t.index = s.index ∧
      (t.status = .running → t.listing = s.listing ∧ t.warnings = s.warnings)) ∧
    (s.mode = .disassembly → t.words = s.words ∧ t.lineNo = s.lineNo ∧ t.status = s.status ∧
      t.warnings = s.warnings)

/-- THE MODEL'S CHOICE (log 4, log 5): where an instruction is handed to a run that has ended, to one
without a line or without a word, the machine stops under the name that says so. -/
def Obligations.InstructionOutsideARunStops : Prop :=
  ∀ (i : Instr) (s : State),
    (s.status ≠ .running → exec i s = .fault .runEnded) ∧
    (s.status = .running → s.mode = .assembly → s.currentLine = none →
      exec i s = .fault (.outsideSource s.lineNo)) ∧
    (s.status = .running → s.mode = .disassembly → s.currentWord = none →
      exec i s = .fault (.outsideStream (wordOffset s.config.objFormat s.index)))

/-- A step runs the decoded instruction: in a disassembly run the instruction that the word at `index`
decodes to, in an assembly run the one that the current line's token record selects; the step adds
nothing around `exec`. -/
def Obligations.StepRunsTheDecodedInstruction : Prop :=
  (∀ (s : State) (w : Word) (i : Instr), ReadsWord s w → decode s.config.strictDecode w = .ok i →
    step s = exec i s) ∧
  ∀ (s : State) (line : Text) (t : Tok) (i : Instr), AtLine s line → s.phase = .working →
    frontEnd line = .tok t → t.instr? = some i → step s = exec i s

/-- One written-out word of each format decodes to its instruction (95_test_vectors.md L2.1, L2.2). -/
def Obligations.WrittenWordsDecode : Prop :=
  decode false 0b00000000000_00010_00001_00011_000001 = .ok (.add 3 1 2) ∧
  decode false 0b00010010001_10100_00000_00111_000101 = .ok (.lui 7 0x1234) ∧
  decode false 0b11111111111_00011_01000_00100_000011 = .ok (.bne 3 8 (-28)) ∧
  decode false 0b00000000000_00110_00101_01100_000111 = .ok (.sw 5 12 6) ∧
  decode false 0 = .ok .halt

/-! ### ENC and DEC -/

/-- HEADLINE: decoding the word of any instruction gives the instruction back, with every operand at
every value, under either STRICT_DECODE. -/
def Obligations.DecodeInvertsEncode : Prop :=
  ∀ (strict : Bool) (i : Instr), decode strict (encode i) = .ok i

/-- The word of a selector as the sum of its shifted fields, for any values on the ports: each used
input in its place, the unused ones without effect, and `enc_ok` = 1 (30_encoding.md, the operand
map). -/
def Obligations.EncoderWordIsTheSumOfItsFields : Prop :=
  ∀ (rd rs1 rs2 : RegIndex) (imm : Imm),
    let regA := fun n : Nat => n + 2 ^ 6 * rd.toNat + 2 ^ 11 * rs1.toNat + 2 ^ 16 * rs2.toNat
    let regB := fun n : Nat => n + 2 ^ 6 * rd.toNat + 2 ^ 11 * rs1.toNat + 2 ^ 16 * imm.toNat
    let split := fun n a b : Nat =>
      n + 2 ^ 6 * (imm.toNat % 32) + 2 ^ 11 * b + 2 ^ 16 * a + 2 ^ 21 * (imm.toNat / 32)
    let out := fun sel : Opcode =>
      ((enc ⟨sel, rd, rs1, rs2, imm⟩).word.toNat, (enc ⟨sel, rd, rs1, rs2, imm⟩).ok)
    out 0 = (0, true) ∧ out 1 = (regA 1, true) ∧ out 2 = (regB 2, true) ∧
    out 3 = (split 3 rs1.toNat rs2.toNat, true) ∧ out 4 = (regA 4, true) ∧
    out 5 = (5 + 2 ^ 6 * rd.toNat + 2 ^ 16 * imm.toNat, true) ∧ out 6 = (regB 6, true) ∧
    out 7 = (split 7 rs1.toNat rs2.toNat, true) ∧ out 8 = (split 8 rs2.toNat rs1.toNat, true) ∧
    out 9 = (regB 9, true) ∧ out 10 = (regA 10, true)

/-- R106: swapping rs1 and rs2 of a format A mnemonic changes only bits 20:16 and 15:11, which swap;
with the rule's example. -/
def Obligations.FormatASwapMovesOnlyTheSourceFields : Prop :=
  (∀ (sel : Opcode), sel = 1 ∨ sel = 4 ∨ sel = 10 → ∀ (rd a b : RegIndex) (imm : Imm),
    let w := (enc ⟨sel, rd, a, b, imm⟩).word
    let w' := (enc ⟨sel, rd, b, a, imm⟩).word
    (∀ k, k < 11 ∨ 20 < k → w.getLsbD k = w'.getLsbD k) ∧
    w.extractLsb 20 16 = w'.extractLsb 15 11 ∧ w.extractLsb 15 11 = w'.extractLsb 20 16) ∧
  encode (.add 3 1 2) = 0x000208C1 ∧ encode (.add 3 2 1) = 0x000110C1

/-- R147: every immediate comes back through a format C word, and every offset from -32768 to 32767
written in decimal comes back as it was written; with the rule's instance, -8 and its two pieces. -/
def Obligations.FormatCImmediateComesBack : Prop :=
  (∀ (sel : Opcode), sel = 3 ∨ sel = 7 ∨ sel = 8 → ∀ (strict : Bool) (rd rs1 rs2 : RegIndex),
    (∀ imm : Imm, (dec strict (enc ⟨sel, rd, rs1, rs2, imm⟩).word).imm = imm) ∧
    ∀ v : Int, -32768 ≤ v → v ≤ 32767 → ∃ imm : Imm, readImm (decInt v) = .ok imm ∧ imm.toInt = v ∧
      immText (dec strict (enc ⟨sel, rd, rs1, rs2, imm⟩).word).imm = decInt v) ∧
  readImm "-8".toList = .ok 0xFFF8 ∧ (0xFFF8 : Imm).extractLsb 15 5 = 0b11111111111 ∧
    (0xFFF8 : Imm).extractLsb 4 0 = 0b11000 ∧ immText 0xFFF8 = "-8".toList

/-- R164: ENC has no arm for the selectors 11 to 63, FE never makes one (a mnemonic it does not know is
E_UNKNOWN_MNEMONIC), and SEQ treats it as E_UNRECOGNIZED_SELECTOR. -/
def Obligations.UndefinedSelectorIsRefusedAndFatal : Prop :=
  (∀ t : Tok, 11 ≤ t.sel.toNat → enc t = ⟨0, false⟩ ∧
    ∀ (s : State) (line : Text), AtLine s line →
      assembleTok t s = .next (failedWith s (.atLine .unrecognizedSelector s.lineNo line))) ∧
  (∀ t : Tok, t.sel.toNat ≤ 10 → (enc t).ok = true) ∧
  (∀ (line : Text) (t : Tok), frontEnd line = .tok t → t.sel.toNat ≤ 10 ∧ (enc t).ok = true) ∧
  ∀ line : Text, preprocess line ≠ [] → (∀ m : Mnemonic, mnemonicToken (preprocess line) ≠ m.text) →
    frontEnd line = .failed ⟨.unknownMnemonic, mnemonicToken (preprocess line)⟩

/-- R72, R162, R163, R175, R204: a word with opcode 11 to 63, or with opcode 0 and another bit set, is
unknown under either STRICT_DECODE; a disassembly run lists every unknown word with UNKNOWN_TEXT,
records the warning and goes on to the next word; with the rules' examples. -/
def Obligations.UnknownWordsAreListedAndTheRunGoesOn : Prop :=
  (∀ (w : Word) (strict : Bool), 11 ≤ w.opcode.toNat ∨ w.opcode = 0 ∧ w ≠ 0 →
    dec strict w = ⟨15, 0, 0, 0, 0, w⟩) ∧
  (∀ (s : State) (w : Word), ReadsWord s w → (dec s.config.strictDecode w).kind = 15 →
    step s = .next (afterList
      { s with warnings := s.warnings ++ [.unknownInstruction s.index w] } w s.config.unknownText)) ∧
  ∀ w ∈ [0x0000000B, 0xFFFFFFFF, 0x00000040, 0x80000000],
    txt defaultUnknownText (dec false w) = "unknown instruction".toList

/-- R165: the reserved and fixed bits under both values of STRICT_DECODE, with the rule's examples. -/
def Obligations.StrictDecodeDecidesOnReservedBits : Prop :=
  (∀ w : Word, w.opcode = 1 ∨ w.opcode = 4 ∨ w.opcode = 10 → w.extractLsb 31 21 ≠ 0 →
    dec true w = ⟨15, 0, 0, 0, 0, w⟩ ∧ (dec false w).kind.toNat = w.opcode.toNat) ∧
  (∀ w : Word, w.opcode = 5 → w.extractLsb 15 11 ≠ 0 →
    dec true w = ⟨15, 0, 0, 0, 0, w⟩ ∧ (dec false w).kind.toNat = 5) ∧
  (∀ w : Word, { dec false w.clearReserved with raw := w } = dec false w) ∧
  (∀ w : Word, w.clearReserved = w → dec true w = dec false w) ∧
  txt defaultUnknownText (dec false 0xFFE208C1) = "add x3, x1, x2".toList ∧
  txt defaultUnknownText (dec true 0xFFE208C1) = "unknown instruction".toList ∧
  txt defaultUnknownText (dec false 0x123429C5) = "lui x7, 4660".toList ∧
  txt defaultUnknownText (dec true 0x123429C5) = "unknown instruction".toList

/-- The records that DEC and FE make are well formed: no kind from 11 to 14, every unused role 0, the
raw word kept (10_state.md, the ports of DEC and the results of FE). -/
def Obligations.RecordsAreWellFormed : Prop :=
  (∀ (strict : Bool) (w : Word), (dec strict w).wellFormed = true ∧ (dec strict w).raw = w) ∧
  ∀ (line : Text) (t : Tok), frontEnd line = .tok t → t.wellFormed = true

/-! ### The round trips -/

/-- HEADLINE, R86: for every line FE accepts, TXT(DEC(ENC(FE(L)))) is the canonical text of its
instruction, under either STRICT_DECODE, and FE reads that text as the same token record; a canonical
line comes back unchanged, for every register and every immediate. -/
def Obligations.EncodeThenDecodeRestoresTheLine : Prop :=
  (∀ (unknown line : Text) (t : Tok), frontEnd line = .tok t → ∃ i : Instr, t = i.tok ∧
    (∀ strict, txt unknown (dec strict (enc t).word) = i.text) ∧ frontEnd i.text = .tok t) ∧
  ∀ (unknown : Text) (strict : Bool) (i : Instr), frontEnd i.text = .tok i.tok ∧
    txt unknown (dec strict (enc i.tok).word) = i.text

/-- HEADLINE, R87: for every word that is not unknown, FE accepts the text DEC and TXT give it, and
ENC gives back the word under STRICT_DECODE, the word without the dropped bits otherwise. -/
def Obligations.DecodeThenEncodeRestoresTheWord : Prop :=
  ∀ (unknown : Text) (strict : Bool) (w : Word), (dec strict w).kind ≠ 15 →
    ∃ t : Tok, frontEnd (txt unknown (dec strict w)) = .tok t ∧
      enc t = ⟨if strict then w else w.clearReserved, true⟩

/-- The canonical texts of a list of instructions, one a line, assemble to exactly their
words (30_encoding.md, section 7; 44_program.md, section 1). -/
def Obligations.CanonicalProgramAssemblesToItsWords : Prop :=
  ∀ (cfg : Config) (is : List Instr), is.length ≤ cfg.maxWords →
    assemble cfg (['\n'].intercalate (is.map Instr.text)) = .ok (is.map encode)

/-! ### FE and TXT -/

/-- R78: a REG operand is `x` and one or more decimal digits, its numeral taken mod 32; any other
token is E_INVALID_REGISTER; with the rule's examples. -/
def Obligations.RegisterOperandGrammar : Prop :=
  (∀ (t : Text) (n : Nat), IsDecimal t n → readReg ('x' :: t) = .ok (BitVec.ofNat 5 n) ∧
    (BitVec.ofNat 5 n).toNat = n % 32) ∧
  (∀ token : Text, (¬∃ t n, token = 'x' :: t ∧ IsDecimal t n) →
    readReg token = .error ⟨.invalidRegister, token⟩) ∧
  ["x5", "x05", "x31", "x32", "x33"].map (fun t => readReg t.toList) =
    [.ok 5, .ok 5, .ok 31, .ok 0, .ok 1] ∧
  ∀ t ∈ ["X5", "x", "x-1", "r5", "x 5"], readReg t.toList = .error ⟨.invalidRegister, t.toList⟩

/-- R79: the grammar of an IMM operand, its value taken mod 65536; any other token is
E_INVALID_IMMEDIATE; with the rule's examples. -/
def Obligations.ImmediateOperandGrammar : Prop :=
  (∀ (t : Text) (v : Int), IsImmediate t v → readImm t = .ok (BitVec.ofInt 16 v) ∧
    ((BitVec.ofInt 16 v).toNat : Int) = v % 65536) ∧
  (∀ token : Text, (¬∃ v, IsImmediate token v) → readImm token = .error ⟨.invalidImmediate, token⟩) ∧
  ["10", "+10", "-8", "0x1F", "0X1f", "0x1FFFF", "65536", "-0x8000"].map (fun t => readImm t.toList) =
    [.ok 10, .ok 10, .ok 0xFFF8, .ok 31, .ok 31, .ok 0xFFFF, .ok 0, .ok 0x8000] ∧
  ∀ t ∈ ["0x", "--1", "1.5", "0b1", "ten"], readImm t.toList = .error ⟨.invalidImmediate, t.toList⟩

/-- R80: the shape of a MEM operand is tested first, then its immediate, then its register, each with
its own condition; a token of another shape is E_MALFORMED_MEMORY_OPERAND; with the rule's examples. -/
def Obligations.MemoryOperandGrammar : Prop :=
  (∀ token imm reg : Text, IsMemShape token imm reg →
    (∀ e, readImm imm = .error e → readMem token = .error e) ∧
    (∀ v e, readImm imm = .ok v → readReg reg = .error e → readMem token = .error e) ∧
    ∀ v r, readImm imm = .ok v → readReg reg = .ok r → readMem token = .ok (v, r)) ∧
  (∀ token : Text, (¬∃ imm reg, IsMemShape token imm reg) →
    readMem token = .error ⟨.malformedMemoryOperand, token⟩) ∧
  ["4(x2)", "-8(x31)", "0x10(x0)"].map (fun t => readMem t.toList) =
    [.ok (4, 2), .ok (-8, 31), .ok (16, 0)] ∧
  (∀ t ∈ ["(x2)", "4x2", "4(x2", "4(x2)x", "4((x2))"],
    readMem t.toList = .error ⟨.malformedMemoryOperand, t.toList⟩) ∧
  readMem "4( x2)".toList = .error ⟨.invalidRegister, " x2".toList⟩

/-- R207: within a line the first failure is reported, in the order mnemonic, empty operand, count,
operands left to right; inside a MEM operand shape, immediate, register; with the rule's examples. -/
def Obligations.FirstFailureOfALineIsReported : Prop :=
  (∀ line : Text, preprocess line ≠ [] →
    let token := mnemonicToken (preprocess line)
    let rest := operandText (preprocess line)
    let ops := operandTokens rest
    (mnemonic? token = none → frontEnd line = .failed ⟨.unknownMnemonic, token⟩) ∧
    ∀ m, mnemonic? token = some m →
      ([] ∈ ops → frontEnd line = .failed ⟨.malformedOperandList, rest⟩) ∧
      ([] ∉ ops → ops.length ≠ (operandKinds m).length →
        frontEnd line = .failed ⟨.operandCount, m.text⟩) ∧
      ([] ∉ ops → ops.length = (operandKinds m).length →
        (∀ e, ((operandKinds m).zip ops).findSome? (fun p => operandError? p.1 p.2) = some e →
          frontEnd line = .failed e) ∧
        (((operandKinds m).zip ops).findSome? (fun p => operandError? p.1 p.2) = none →
          ∃ t, frontEnd line = .tok t ∧ t.sel = m.opcode))) ∧
  (∀ token imm reg : Text, IsMemShape token imm reg →
    operandError? .mem token = (operandError? .imm imm).or (operandError? .reg reg)) ∧
  (∀ token : Text, (¬∃ imm reg, IsMemShape token imm reg) →
    operandError? .mem token = some ⟨.malformedMemoryOperand, token⟩) ∧
  frontEnd "foo x99, 0xZZ".toList = .failed ⟨.unknownMnemonic, "foo".toList⟩ ∧
  frontEnd "add x1, y2, z3".toList = .failed ⟨.invalidRegister, "y2".toList⟩

/-- A line gives no word exactly when nothing but whitespace stands before its comment, its final CR
aside (30_encoding.md, section 5). -/
def Obligations.BlankAndCommentLinesAreSkipped : Prop :=
  ∀ line : Text, frontEnd line = .skip ↔
    ∀ c ∈ (if line.getLast? = some '\r' then line.dropLast else line).takeWhile (· ≠ '#'),
      c = ' ' ∨ c = '\t'

/-- R84: the decimal rendering of an integer: the digits of n, no leading zero, `-` in front for a
negative n; with the rule's examples. -/
def Obligations.DecimalRenderingIsCanonical : Prop :=
  (∀ n : Nat, ∃ ds : List Nat, ds ≠ [] ∧ (∀ d ∈ ds, d < 10) ∧ decInt n = ds.map Nat.digitChar ∧
    n = Nat.ofDigits 10 ds.reverse ∧ (ds.head? = some 0 → n = 0 ∧ ds = [0])) ∧
  (∀ n : Nat, 0 < n → decInt (-(n : Int)) = '-' :: decInt n) ∧
  decInt 10 = "10".toList ∧ decInt (-8) = "-8".toList ∧ decInt (-32768) = "-32768".toList

/-! ### The object byte stream -/

/-- R42: the stream that an assembly run writes in RAW_LE, byte by byte. -/
def Obligations.RawStreamLayout : Prop :=
  ∀ s : State, s.status = .running → s.phase = .working → s.mode = .assembly →
    s.currentLine = none → s.env.writeFails = false → s.config.objFormat = .rawLE →
    ∃ t, step s = .next t ∧ t.status = .done ∧ Memory.len t.stream = 4 * s.words.length ∧
      ∀ k w, s.words[k]? = some w →
        Memory.readByte t.stream (4 * k + 0) = some (w.extractLsb 7 0) ∧
        Memory.readByte t.stream (4 * k + 1) = some (w.extractLsb 15 8) ∧
        Memory.readByte t.stream (4 * k + 2) = some (w.extractLsb 23 16) ∧
        Memory.readByte t.stream (4 * k + 3) = some (w.extractLsb 31 24)

/-- R43: the stream that an assembly run writes in LEGACY_BE, header and words, byte by byte. -/
def Obligations.LegacyStreamLayout : Prop :=
  ∀ s : State, s.status = .running → s.phase = .working → s.mode = .assembly →
    s.currentLine = none → s.env.writeFails = false → s.config.objFormat = .legacyBE →
    ∃ t, step s = .next t ∧ t.status = .done ∧ Memory.len t.stream = 8 + 4 * s.words.length ∧
      (let n := BitVec.ofNat 32 s.words.length
       (List.range 8).map (Memory.readByte t.stream) =
         [some 0x00, some 0xC0, some 0xFF, some 0xEE, some (n.extractLsb 31 24),
          some (n.extractLsb 23 16), some (n.extractLsb 15 8), some (n.extractLsb 7 0)]) ∧
      ∀ k w, s.words[k]? = some w →
        Memory.readByte t.stream (8 + 4 * k + 0) = some (w.extractLsb 31 24) ∧
        Memory.readByte t.stream (8 + 4 * k + 1) = some (w.extractLsb 23 16) ∧
        Memory.readByte t.stream (8 + 4 * k + 2) = some (w.extractLsb 15 8) ∧
        Memory.readByte t.stream (8 + 4 * k + 3) = some (w.extractLsb 7 0)

/-- A stream written in a format reads back in that format without a warning, as the words written
(20_memory.md, section 1). -/
def Obligations.WrittenStreamReadsBack : Prop :=
  ∀ (cfg : Config) (words : List Word), cfg.wellFormed = true → words.length ≤ cfg.maxWords →
    let m := Memory.ofBytes (objectBytes cfg.objFormat words)
    checkStream cfg m = .ok [] ∧ streamWords cfg.objFormat m = words

/-- R44: reading a RAW_LE stream of any bytes: the number of words, each word's bytes, and one warning
for a trailing partial word, after which the read goes on. -/
def Obligations.RawStreamRead : Prop :=
  ∀ (cfg : Config) (bs : List Byte), cfg.objFormat = .rawLE → bs.length / 4 ≤ cfg.maxWords →
    ∃ t, step (beginDisassembly cfg {} (Memory.ofBytes bs)) = .next t ∧ t.status = .running ∧
      t.wordCount = bs.length / 4 ∧
      t.warnings = (if bs.length % 4 = 0 then [] else [.trailingPartialWord (bs.length % 4)]) ∧
      ∀ (k : Nat) (b0 b1 b2 b3 : Byte), bs[4 * k]? = some b0 → bs[4 * k + 1]? = some b1 →
        bs[4 * k + 2]? = some b2 → bs[4 * k + 3]? = some b3 →
        k < t.wordCount ∧ readWord cfg.objFormat t.stream k = some (b3 ++ b2 ++ b1 ++ b0)

/-- R45: reading a LEGACY_BE stream: a bad header, then the partial word's warning, then the count. -/
def Obligations.LegacyStreamRead : Prop :=
  ∀ (cfg : Config) (bs : List Byte), cfg.objFormat = .legacyBE →
    let s := beginDisassembly cfg {} (Memory.ofBytes bs)
    (bs.length < 8 ∨ bs.take 4 ≠ [0x00, 0xC0, 0xFF, 0xEE] →
      step s = .next (failedWith s (.badHeader bs.length))) ∧
    ∀ (c0 c1 c2 c3 : Byte) (body : List Byte),
      bs = [0x00, 0xC0, 0xFF, 0xEE, c0, c1, c2, c3] ++ body →
      let count := (c0 ++ c1 ++ c2 ++ c3 : Word).toNat
      let n := body.length / 4
      (count ≠ n → step s = .next (failedWith s (.countMismatch count n))) ∧
      (count = n → n ≤ cfg.maxWords →
        ∃ t, step s = .next t ∧ t.status = .running ∧ t.wordCount = n ∧
          t.warnings = (if body.length % 4 = 0 then [] else [.trailingPartialWord (body.length % 4)]) ∧
          ∀ (k : Nat) (b0 b1 b2 b3 : Byte), body[4 * k]? = some b0 → body[4 * k + 1]? = some b1 →
            body[4 * k + 2]? = some b2 → body[4 * k + 3]? = some b3 →
            k < t.wordCount ∧ readWord cfg.objFormat t.stream k = some (b0 ++ b1 ++ b2 ++ b3))

/-- A stream of more than MAX_WORDS whole words ends the run with E_PROGRAM_TOO_LARGE when it is read:
in RAW_LE at once, in LEGACY_BE after a good header with the right count (44_program.md, sections 2 and
3). DEDUCED: that the record has no line and no token (log 16), that `line_no` and `index` stay
(log 13). -/
def Obligations.TooLargeStreamFails : Prop :=
  ∀ (cfg : Config) (bs : List Byte),
    let s := beginDisassembly cfg {} (Memory.ofBytes bs)
    (cfg.objFormat = .rawLE → cfg.maxWords < bs.length / 4 →
      step s = .next (failedWith s .streamTooLarge)) ∧
    ∀ (c0 c1 c2 c3 : Byte) (body : List Byte), cfg.objFormat = .legacyBE →
      bs = [0x00, 0xC0, 0xFF, 0xEE, c0, c1, c2, c3] ++ body →
      (c0 ++ c1 ++ c2 ++ c3 : Word).toNat = body.length / 4 → cfg.maxWords < body.length / 4 →
      step s = .next (failedWith s .streamTooLarge)

/-! ### The runs -/

/-- The values at the start of a run, whatever came before: a run's start is a function of its input
alone (70_reset_and_hazards.md, section 1; 10_state.md, section 3). -/
def Obligations.RunsStartFresh : Prop :=
  (∀ (cfg : Config) (env : Environment) (text : Text),
    let s := beginAssembly cfg env text
    s.mode = .assembly ∧ s.config = cfg ∧ s.env = env ∧ s.text = text ∧ s.lineNo = 1 ∧
      s.words = [] ∧ s.status = .running) ∧
  (∀ (cfg : Config) (env : Environment) (m : Memory),
    let s := beginDisassembly cfg env m
    s.mode = .disassembly ∧ s.config = cfg ∧ s.env = env ∧ s.stream = m ∧ s.index = 0 ∧
      s.listing = [] ∧ s.warnings = [] ∧ s.status = .running ∧ listingAddress s.index = 0)

/-- An assembly run, step by step, ends as ASSEMBLE says: DONE with its words and their object byte
stream, or FAILED with its record and no output (44_program.md, section 1). THE MODEL'S CHOICE: the
number of steps (log 2), that a run which fails early stays as it is for the rest of them (log 4), that
the stream of a failed run is the empty one it began with (log 14). -/
def Obligations.AssemblyRunIsAssemble : Prop :=
  ∀ (cfg : Config) (text : Text),
    let lines := splitAtChar '\n' text
    ∃ t, run (lines.length + 2) (beginAssembly cfg {} text) = .next t ∧
      match assemble cfg text with
      | .ok words =>
        t.status = .done ∧ t.lineNo = lines.length + 1 ∧ t.words = words ∧
          t.output = some (.program words (Memory.ofBytes (objectBytes cfg.objFormat words)))
      | .error f =>
        t.status = .failed f ∧ t.words = [] ∧ t.stream = [] ∧ t.output = some (.failure f)

/-- R172: the words of an assembly run that ends DONE are those of its lines, each on its own. -/
def Obligations.EachWordDependsOnItsLineAlone : Prop :=
  ∀ (cfg : Config) (env : Environment) (text : Text) (k : Nat) (t : State),
    run k (beginAssembly cfg env text) = .next t → t.status = .done →
    t.words = (splitAtChar '\n' text).filterMap fun line =>
      match frontEnd line with
      | .tok tok => some (enc tok).word
      | _ => none

/-- A disassembly run, step by step, ends as DISASSEMBLE says: DONE with its listing and its warnings,
which are its output with one LF after every line, or FAILED with its record and no listing; the stream
is as it was (44_program.md, sections 2 and 3). THE MODEL'S CHOICE: the number of steps (log 2), and
that a run which fails early stays as it is for the rest of them (log 4). -/
def Obligations.DisassemblyRunIsDisassemble : Prop :=
  ∀ (cfg : Config) (m : Memory), Memory.wf m = true →
    ∃ t, run (wholeWords cfg.objFormat m + 2) (beginDisassembly cfg {} m) = .next t ∧
      t.stream = m ∧
      match disassemble cfg m with
      | .ok (listing, warnings) =>
        t.status = .done ∧ t.index = wholeWords cfg.objFormat m ∧ t.listing = listing ∧
          t.warnings = warnings ∧
          t.output = some (.listing (listing.flatMap fun line => line ++ ['\n']) warnings)
      | .error f =>
        t.status = .failed f ∧ t.listing = [] ∧ t.warnings = [] ∧ t.output = some (.failure f)

/-- R177: the listing address of the word at index i is 4*i, in either format. -/
def Obligations.ListingAddressIsFourTimesTheIndex : Prop :=
  ∀ (s : State) (w : Word), ReadsWord s w → s.index < 2 ^ 30 →
    ∃ (t : State) (a : Word), step s = .next t ∧ a.toNat = 4 * s.index ∧ t.index = s.index + 1 ∧
      t.listing = s.listing ++ [listingHex s.config.listingHex a ++ ": ".toList ++
        listingHex s.config.listingHex w ++ "  ".toList ++
        txt s.config.unknownText (dec s.config.strictDecode w)]

/-- R176: every word's listing line is LISTING_HEX of its address, `: `, LISTING_HEX of the word, two
spaces, and TXT's text; LISTING_HEX is by default 8 uppercase hex digits without a prefix, for every
word; the listing of a run is ASCII, whatever LISTING_HEX is, and one LF ends each of its lines; with
the rule's example. -/
def Obligations.ListingHasItsFormat : Prop :=
  (∀ (s : State) (w : Word), ReadsWord s w → ∃ t, step s = .next t ∧
    t.listing = s.listing ++ [listingHex s.config.listingHex (listingAddress s.index) ++ ": ".toList ++
      listingHex s.config.listingHex w ++ "  ".toList ++
      txt s.config.unknownText (dec s.config.strictDecode w)]) ∧
  Config.listingHex {} = .upper8 ∧
  (∀ w : Word, IsUpperHex8 (listingHex .upper8 w) w.toNat) ∧
  listingLine .upper8 4 0xFFE31603 "bne x3, x2, -8".toList =
    "00000004: FFE31603  bne x3, x2, -8".toList ∧
  ∀ (cfg : Config) (env : Environment) (m : Memory) (k : Nat) (t : State) (text : Text)
    (warnings : List Warning), cfg.wellFormed = true → run k (beginDisassembly cfg env m) = .next t →
    t.output = some (.listing text warnings) →
    Text.isAscii text = true ∧ text = t.listing.flatMap fun line => line ++ ['\n']

/-- Every condition FE raises has a code from 1 to 6 and ends the whole assembly run at its line, for
good (60_exceptions.md, section 1). THE MODEL'S CHOICE: that the failed state stays under further steps
(log 4); DEDUCED: that `line_no` and `index` stay (log 13). -/
def Obligations.SyntaxConditionsAreFatal : Prop :=
  ∀ (s : State) (line : Text) (e : LineError), AtLine s line → s.phase = .working →
    frontEnd line = .failed e →
    1 ≤ e.code.number ∧ e.code.number ≤ 6 ∧
    step s = .next (failedWith s (.atLine e.code s.lineNo e.token)) ∧
    ∀ k, run k (failedWith s (.atLine e.code s.lineNo e.token)) =
      .next (failedWith s (.atLine e.code s.lineNo e.token))

/-- A step that takes a fatal condition discards what was collected, leaves the record as the
run's only result, keeps the place where it arose (which is the line a record with a line names), and
nothing runs after it (60_exceptions.md, section 3). THE MODEL'S CHOICE: that the failed state stays
under further steps (log 4); DEDUCED: that `line_no` and `index` stay (log 13). -/
def Obligations.FatalConditionDiscardsAndStops : Prop :=
  ∀ (s t : State) (f : Failure), s.status = .running → step s = .next t → t.status = .failed f →
    t = failedWith s f ∧ t.output = some (.failure f) ∧
    (∀ c n token, f = .atLine c n token → n = s.lineNo ∧ s.mode = .assembly) ∧ ∀ k, run k t = .next t

/-- THE MODEL'S CHOICE (log 9) of when the environment's E_IO ends a run: when its input is opened, or
when its output is written; there is no output then (60_exceptions.md, section 1). -/
def Obligations.EnvironmentFailureEndsTheRun : Prop :=
  (∀ s : State, s.status = .running → s.phase = .opening → s.env.inputMissing = true →
    step s = .next (failedWith s .io)) ∧
  (∀ s : State, s.status = .running → s.phase = .working → s.mode = .assembly →
    s.currentLine = none → s.env.writeFails = true → step s = .next (failedWith s .io)) ∧
  ∀ s : State, s.status = .running → s.phase = .working → s.mode = .disassembly →
    s.wordCount ≤ s.index → s.env.writeFails = true → step s = .next (failedWith s .io)

/-- THE MODEL'S CHOICE (log 4): a run that has ended stays as it is. -/
def Obligations.EndedRunStays : Prop :=
  ∀ (s : State) (k : Nat), s.status ≠ .running → run k s = .next s

/-! ### The whole machine -/

/-- HEADLINE: every step keeps the invariant of a run. -/
def Obligations.EveryStepKeepsTheInvariant : Prop :=
  ∀ s t : State, s.Inv → step s = .next t → t.Inv

/-- The invariant holds after reset and at the start of every run with a legal configuration and a
canonical stream. -/
def Obligations.InvariantHoldsAtTheStart : Prop :=
  State.reset.Inv ∧
  (∀ (cfg : Config) (env : Environment) (text : Text), cfg.wellFormed = true →
    (beginAssembly cfg env text).Inv) ∧
  ∀ (cfg : Config) (env : Environment) (m : Memory), cfg.wellFormed = true → Memory.wf m = true →
    (beginDisassembly cfg env m).Inv

/-- No state with the invariant reaches a fault or a refusal. -/
def Obligations.GoodStatesStepOn : Prop :=
  ∀ s : State, s.Inv → s.StepsOn

/-- Every run ends: from a state with the invariant, DONE or FAILED is reached within one step for each
line and each word, and three more (44_program.md, section 3). THE MODEL'S CHOICE: what one step is, on
which the bound rests (log 2). -/
def Obligations.EveryRunEnds : Prop :=
  ∀ s : State, s.Inv → ∃ k t, k ≤ s.lines.length + s.wordCount + 3 ∧ run k s = .next t ∧
    t.status ≠ .running

/-- No step changes the configuration, the run's direction or its input; a disassembly run never
writes the stream and never emits, an assembly run never lists (20_memory.md, section 4;
70_reset_and_hazards.md, section 1). -/
def Obligations.EveryStepKeepsTheInputs : Prop :=
  ∀ s t : State, step s = .next t →
    t.config = s.config ∧ t.env = s.env ∧ t.mode = s.mode ∧ t.text = s.text ∧
    (s.mode = .disassembly → t.stream = s.stream ∧ (t.words = s.words ∨ t.words = []) ∧
      t.lineNo = s.lineNo) ∧
    (s.mode = .assembly → (t.status ≠ .done → t.stream = s.stream) ∧
      (t.listing = s.listing ∨ t.listing = []) ∧ t.index = s.index)

/-- The numbers of the conditions (60_exceptions.md, section 1). -/
def Obligations.ConditionNumbers : Prop :=
  ∀ (n k : Nat) (t : Text) (w : Word),
    [LineCondition.unknownMnemonic, .invalidRegister, .invalidImmediate, .malformedMemoryOperand,
      .operandCount, .malformedOperandList, .unrecognizedSelector, .programTooLarge].map
        (fun c => (Failure.atLine c n t).number) = [1, 2, 3, 4, 5, 6, 7, 34] ∧
    [Failure.badHeader n, .countMismatch n k, .streamTooLarge, .io].map Failure.number =
      [32, 33, 34, 48] ∧
    (Warning.unknownInstruction n w).number = 16 ∧ (Warning.trailingPartialWord n).number = 17
end

