-- ==== Sys2Proof/Laws/Fields.lean ====
section
/-! SUPPORT. The fields of a packed word, and a word put back together from its fields and its bytes:
what proofs about ENC, DEC and the byte layout cite instead of unfolding a concatenation. -/

namespace Sys2Proof

/-- The opcode of every mnemonic is one of the 11 defined (R61). -/
theorem Mnemonic.opcode_le (m : Mnemonic) : m.opcode.toNat ≤ 10 := by cases m <;> decide

theorem extract_append_extract {n : Nat} (x : BitVec n) (start lo hi : Nat) :
    x.extractLsb' (start + lo) hi ++ x.extractLsb' start lo = x.extractLsb' start (hi + lo) :=
  BitVec.extractLsb'_append_extractLsb'_eq_extractLsb' rfl

/-! ### The five-field grid of formats A and C (R63, R65) -/

section grid
variable (a : BitVec 11) (b c d : BitVec 5) (e : BitVec 6)

theorem grid_opcode : (a ++ b ++ c ++ d ++ e).extractLsb' 0 6 = e :=
  BitVec.extractLsb'_append_eq_right

theorem grid_10_6 : (a ++ b ++ c ++ d ++ e).extractLsb' 6 5 = d := by
  rw [BitVec.extractLsb'_append_eq_of_le (by decide)]
  exact BitVec.extractLsb'_append_eq_right

theorem grid_15_11 : (a ++ b ++ c ++ d ++ e).extractLsb' 11 5 = c := by
  rw [BitVec.extractLsb'_append_eq_of_le (by decide), BitVec.extractLsb'_append_eq_of_le (by decide)]
  exact BitVec.extractLsb'_append_eq_right

theorem grid_20_16 : (a ++ b ++ c ++ d ++ e).extractLsb' 16 5 = b := by
  rw [BitVec.extractLsb'_append_eq_of_le (by decide), BitVec.extractLsb'_append_eq_of_le (by decide),
    BitVec.extractLsb'_append_eq_of_le (by decide)]
  exact BitVec.extractLsb'_append_eq_right

theorem grid_31_21 : (a ++ b ++ c ++ d ++ e).extractLsb' 21 11 = a := by
  rw [BitVec.extractLsb'_append_eq_of_le (by decide), BitVec.extractLsb'_append_eq_of_le (by decide),
    BitVec.extractLsb'_append_eq_of_le (by decide), BitVec.extractLsb'_append_eq_of_le (by decide)]
  exact BitVec.extractLsb'_eq_self

end grid

/-! ### Format A -/

section packA
variable (op : Opcode) (rs2 rs1 rd : RegIndex)

@[simp] theorem packA_opcode : (packA op rs2 rs1 rd).opcode = op := grid_opcode ..
@[simp] theorem packA_10_6 : (packA op rs2 rs1 rd).field10_6 = rd := grid_10_6 ..
@[simp] theorem packA_15_11 : (packA op rs2 rs1 rd).field15_11 = rs1 := grid_15_11 ..
@[simp] theorem packA_20_16 : (packA op rs2 rs1 rd).field20_16 = rs2 := grid_20_16 ..
@[simp] theorem packA_31_21 : (packA op rs2 rs1 rd).field31_21 = 0 := grid_31_21 ..

end packA

/-! ### Format B -/

section packB
variable (op : Opcode) (imm : Imm) (rs1 rd : RegIndex)

@[simp] theorem packB_opcode : (packB op imm rs1 rd).opcode = op := by
  exact BitVec.extractLsb'_append_eq_right (a := imm ++ rs1 ++ rd)

@[simp] theorem packB_10_6 : (packB op imm rs1 rd).field10_6 = rd := by
  change (imm ++ rs1 ++ rd ++ op).extractLsb' 6 5 = rd
  rw [BitVec.extractLsb'_append_eq_of_le (by decide)]
  exact BitVec.extractLsb'_append_eq_right

@[simp] theorem packB_15_11 : (packB op imm rs1 rd).field15_11 = rs1 := by
  change (imm ++ rs1 ++ rd ++ op).extractLsb' 11 5 = rs1
  rw [BitVec.extractLsb'_append_eq_of_le (by decide), BitVec.extractLsb'_append_eq_of_le (by decide)]
  exact BitVec.extractLsb'_append_eq_right

@[simp] theorem packB_immB : (packB op imm rs1 rd).immB = imm := by
  change (imm ++ rs1 ++ rd ++ op).extractLsb' 16 16 = imm
  rw [BitVec.extractLsb'_append_eq_of_le (by decide), BitVec.extractLsb'_append_eq_of_le (by decide),
    BitVec.extractLsb'_append_eq_of_le (by decide)]
  exact BitVec.extractLsb'_eq_self

end packB

/-! ### Format C -/

section packC
variable (op : Opcode) (fieldA fieldB : RegIndex) (imm : Imm)

@[simp] theorem packC_opcode : (packC op fieldA fieldB imm).opcode = op := grid_opcode ..
@[simp] theorem packC_10_6 : (packC op fieldA fieldB imm).field10_6 = imm.extractLsb' 0 5 := grid_10_6 ..
@[simp] theorem packC_15_11 : (packC op fieldA fieldB imm).field15_11 = fieldB := grid_15_11 ..
@[simp] theorem packC_20_16 : (packC op fieldA fieldB imm).field20_16 = fieldA := grid_20_16 ..
@[simp] theorem packC_31_21 : (packC op fieldA fieldB imm).field31_21 = imm.extractLsb' 5 11 :=
  grid_31_21 ..

/-- The format C immediate survives the split and the rejoin (R69). -/
@[simp] theorem packC_immC : (packC op fieldA fieldB imm).immC = imm := by
  rw [Word.immC, packC_31_21, packC_10_6]
  exact (extract_append_extract imm 0 5 11).trans BitVec.extractLsb'_eq_self

end packC

/-! ### A word from its own fields -/

section rebuild
variable (w : Word)

theorem word_eq_grid :
    w.field31_21 ++ w.field20_16 ++ w.field15_11 ++ w.field10_6 ++ w.opcode = w := by
  have h1 : w.extractLsb' 21 11 ++ w.extractLsb' 16 5 = w.extractLsb' 16 16 :=
    extract_append_extract w 16 5 11
  have h2 : w.extractLsb' 16 16 ++ w.extractLsb' 11 5 = w.extractLsb' 11 21 :=
    extract_append_extract w 11 5 16
  have h3 : w.extractLsb' 11 21 ++ w.extractLsb' 6 5 = w.extractLsb' 6 26 :=
    extract_append_extract w 6 5 21
  rw [Word.field31_21, Word.field20_16, Word.field15_11, Word.field10_6, Word.opcode, h1, h2, h3]
  exact (extract_append_extract w 0 6 26).trans BitVec.extractLsb'_eq_self

theorem word_eq_packA (h : w.field31_21 = 0) :
    packA w.opcode w.field20_16 w.field15_11 w.field10_6 = w := by
  conv_rhs => rw [← word_eq_grid w, h]
  rfl

theorem word_eq_packB : packB w.opcode w.immB w.field15_11 w.field10_6 = w := by
  have h2 : w.extractLsb' 16 16 ++ w.extractLsb' 11 5 = w.extractLsb' 11 21 :=
    extract_append_extract w 11 5 16
  have h3 : w.extractLsb' 11 21 ++ w.extractLsb' 6 5 = w.extractLsb' 6 26 :=
    extract_append_extract w 6 5 21
  rw [packB, Word.immB, Word.field15_11, Word.field10_6, Word.opcode, h2, h3]
  exact (extract_append_extract w 0 6 26).trans BitVec.extractLsb'_eq_self

theorem immC_high : w.immC.extractLsb' 5 11 = w.field31_21 := by
  change (w.field31_21 ++ w.field10_6).extractLsb' 5 11 = _
  rw [BitVec.extractLsb'_append_eq_of_le (by decide)]
  exact BitVec.extractLsb'_eq_self

theorem immC_low : w.immC.extractLsb' 0 5 = w.field10_6 :=
  BitVec.extractLsb'_append_eq_right (a := w.field31_21)

theorem word_eq_packC : packC w.opcode w.field20_16 w.field15_11 w.immC = w := by
  rw [packC, immC_high, immC_low]
  exact word_eq_grid w

/-- A word is its four bytes, in either order (R42, R43, R46). -/
theorem wordOfBytes_wordBytes (fmt : ObjFormat) :
    ∃ b0 b1 b2 b3, wordBytes fmt w = [b0, b1, b2, b3] ∧ wordOfBytes fmt b0 b1 b2 b3 = w := by
  have h1 : w.extractLsb' 24 8 ++ w.extractLsb' 16 8 = w.extractLsb' 16 16 :=
    extract_append_extract w 16 8 8
  have h2 : w.extractLsb' 16 16 ++ w.extractLsb' 8 8 = w.extractLsb' 8 24 :=
    extract_append_extract w 8 8 16
  have h3 : w.extractLsb' 8 24 ++ w.extractLsb' 0 8 = w :=
    (extract_append_extract w 0 8 24).trans BitVec.extractLsb'_eq_self
  cases fmt <;> refine ⟨_, _, _, _, rfl, ?_⟩ <;> rw [wordOfBytes, h1, h2] <;> exact h3

end rebuild

end Sys2Proof
end

