-- ==== Sys2Proof/Laws/Memory.lean ====
section
/-! SUPPORT. The object byte stream: every operation keeps its canonical form, and what a read gives
after a stream is made of bytes. -/

namespace Sys2Proof.Machine

theorem Memory.wfFrom_ofBytesFrom (k : Nat) (bs : List Byte) :
    Memory.wfFrom k (Memory.ofBytesFrom k bs) = true := by
  induction bs generalizing k with
  | nil => rfl
  | cons b bs ih => simp [Memory.ofBytesFrom, Memory.wfFrom, ih]

/-- A stream made of bytes is in canonical form (R40). -/
@[simp] theorem Memory.wf_ofBytes (bs : List Byte) : Memory.wf (Memory.ofBytes bs) = true :=
  Memory.wfFrom_ofBytesFrom 0 bs

theorem Memory.toBytes_ofBytesFrom (k : Nat) (bs : List Byte) :
    Memory.toBytes (Memory.ofBytesFrom k bs) = bs := by
  induction bs generalizing k with
  | nil => rfl
  | cons b bs ih => simpa [Memory.ofBytesFrom, Memory.toBytes] using ih (k + 1)

@[simp] theorem Memory.toBytes_ofBytes (bs : List Byte) : Memory.toBytes (Memory.ofBytes bs) = bs :=
  Memory.toBytes_ofBytesFrom 0 bs

theorem Memory.ofBytesFrom_toBytes (k : Nat) (m : Memory) (h : Memory.wfFrom k m = true) :
    Memory.ofBytesFrom k (Memory.toBytes m) = m := by
  induction m generalizing k with
  | nil => rfl
  | cons c cs ih =>
    obtain ⟨a, b⟩ := c
    simp only [Memory.wfFrom, Bool.and_eq_true, decide_eq_true_eq] at h
    obtain ⟨rfl, h⟩ := h
    simpa [Memory.toBytes, Memory.ofBytesFrom] using ih _ h

/-- A canonical stream is its bytes: equal bytes, equal data. -/
theorem Memory.ofBytes_toBytes {m : Memory} (h : Memory.wf m = true) :
    Memory.ofBytes (Memory.toBytes m) = m :=
  Memory.ofBytesFrom_toBytes 0 m h

@[simp] theorem Memory.len_toBytes (m : Memory) : (Memory.toBytes m).length = Memory.len m := by
  simp [Memory.toBytes, Memory.len]

@[simp] theorem Memory.len_ofBytes (bs : List Byte) : Memory.len (Memory.ofBytes bs) = bs.length := by
  rw [← Memory.len_toBytes, Memory.toBytes_ofBytes]

theorem Memory.readByte_ofBytesFrom (k : Nat) (bs : List Byte) (a : Nat) :
    Memory.readByte (Memory.ofBytesFrom k bs) (k + a) = bs[a]? := by
  induction bs generalizing k a with
  | nil => rfl
  | cons b bs ih =>
    cases a with
    | zero => simp [Memory.ofBytesFrom, Memory.readByte]
    | succ a =>
      have h := ih (k + 1) a
      simp only [Memory.ofBytesFrom, Memory.readByte]
      rw [if_neg (by omega), show k + (a + 1) = k + 1 + a by omega, h]
      simp

/-- `ObjByte(a)` of a stream made of bytes is the a-th of them; past the end there is none (R40). -/
@[simp] theorem Memory.readByte_ofBytes (bs : List Byte) (a : Nat) :
    Memory.readByte (Memory.ofBytes bs) a = bs[a]? := by
  simpa [Memory.ofBytes] using Memory.readByte_ofBytesFrom 0 bs a

/-- The same of any canonical stream. -/
theorem Memory.readByte_eq {m : Memory} (h : Memory.wf m = true) (a : Nat) :
    Memory.readByte m a = (Memory.toBytes m)[a]? := by
  rw [← Memory.readByte_ofBytes, Memory.ofBytes_toBytes h]

/-- Every address below len of a canonical stream has a byte (R40). -/
theorem Memory.exists_readByte {m : Memory} (h : Memory.wf m = true) {a : Nat}
    (ha : a < Memory.len m) : ∃ b, Memory.readByte m a = some b := by
  rw [Memory.readByte_eq h]
  exact ⟨_, List.getElem?_eq_getElem (by simpa using ha)⟩

/-- The placing of a word keeps the canonical form. -/
@[simp] theorem wf_placeWord (fmt : ObjFormat) (m : Memory) (k : Nat) (w : Word) :
    Memory.wf (placeWord fmt m k w) = true :=
  Memory.wf_ofBytes _

@[simp] theorem length_wordBytes (fmt : ObjFormat) (w : Word) : (wordBytes fmt w).length = 4 := by
  cases fmt <;> rfl

/-- Reading word `k`: its four bytes, in the format's order (R44, R45). -/
theorem readWord_eq_some {fmt : ObjFormat} {m : Memory} {k : Nat} {b0 b1 b2 b3 : Byte}
    (h0 : Memory.readByte m (wordOffset fmt k) = some b0)
    (h1 : Memory.readByte m (wordOffset fmt k + 1) = some b1)
    (h2 : Memory.readByte m (wordOffset fmt k + 2) = some b2)
    (h3 : Memory.readByte m (wordOffset fmt k + 3) = some b3) :
    readWord fmt m k = some (wordOfBytes fmt b0 b1 b2 b3) := by
  simp [readWord, h0, h1, h2, h3]

/-- A canonical stream has every word below its number of whole words (R44, R45). -/
theorem exists_readWord {fmt : ObjFormat} {m : Memory} (h : Memory.wf m = true) {k : Nat}
    (hk : k < wholeWords fmt m) : ∃ w, readWord fmt m k = some w := by
  have hlen : wordOffset fmt k + 3 < Memory.len m := by
    simp only [wholeWords, wordOffset] at *
    omega
  obtain ⟨b0, h0⟩ := Memory.exists_readByte h (show wordOffset fmt k < Memory.len m by omega)
  obtain ⟨b1, h1⟩ := Memory.exists_readByte h (show wordOffset fmt k + 1 < Memory.len m by omega)
  obtain ⟨b2, h2⟩ := Memory.exists_readByte h (show wordOffset fmt k + 2 < Memory.len m by omega)
  obtain ⟨b3, h3⟩ := Memory.exists_readByte h hlen
  exact ⟨_, readWord_eq_some h0 h1 h2 h3⟩

/-- The word placed at `k` is the word read there. -/
theorem readWord_placeWord (fmt : ObjFormat) (m : Memory) (k : Nat) (w : Word) :
    readWord fmt (placeWord fmt m k w) k = some w := by
  obtain ⟨b0, b1, b2, b3, hb, hw⟩ := wordOfBytes_wordBytes w fmt
  have hpre : ((m.toBytes.take (wordOffset fmt k)) ++
      List.replicate (wordOffset fmt k - m.toBytes.length) (0 : Byte)).length = wordOffset fmt k := by
    simp only [List.length_append, List.length_take, List.length_replicate]
    omega
  have hread : ∀ j, j < 4 → Memory.readByte (placeWord fmt m k w) (wordOffset fmt k + j) =
      (wordBytes fmt w)[j]? := by
    intro j hj
    rw [placeWord, Memory.readByte_ofBytes,
      List.getElem?_append_left (by simp only [List.length_append, length_wordBytes] at *; omega),
      List.getElem?_append_right (by omega), hpre]
    congr 1
    omega
  rw [readWord_eq_some (by simpa [hb] using hread 0 (by omega)) (by simpa [hb] using hread 1 (by omega))
    (by simpa [hb] using hread 2 (by omega)) (by simpa [hb] using hread 3 (by omega)), hw]

/-- Four bytes for every word. -/
theorem length_flatMap_wordBytes (fmt : ObjFormat) (ws : List Word) :
    (ws.flatMap (wordBytes fmt)).length = 4 * ws.length := by
  induction ws with
  | nil => rfl
  | cons w ws ih =>
    rw [List.flatMap_cons, List.length_append, length_wordBytes, ih, List.length_cons]
    omega

/-- Byte `j` of word `k` in the word area (R42, R43). -/
theorem getElem?_flatMap_wordBytes (fmt : ObjFormat) {ws : List Word} {k j : Nat} {w : Word}
    (h : ws[k]? = some w) (hj : j < 4) :
    (ws.flatMap (wordBytes fmt))[4 * k + j]? = (wordBytes fmt w)[j]? := by
  induction ws generalizing k with
  | nil => simp at h
  | cons v ws ih =>
    rw [List.flatMap_cons]
    cases k with
    | zero =>
      obtain rfl : v = w := by simpa using h
      rw [List.getElem?_append_left (by rw [length_wordBytes]; omega)]
      simp
    | succ k =>
      rw [List.getElem?_append_right (by rw [length_wordBytes]; omega), length_wordBytes,
        show 4 * (k + 1) + j - 4 = 4 * k + j by omega]
      exact ih (by simpa using h)

@[simp] theorem length_objectHeader (fmt : ObjFormat) (n : Nat) :
    (objectHeader fmt n).length = wordBase fmt := by
  cases fmt <;> rfl

/-- What the checks of a read can say (R44, R45, R174). -/
theorem checkStream_cases (cfg : Config) (m : Memory) :
    (cfg.objFormat = .legacyBE ∧ headerGood m = false ∧
        checkStream cfg m = .error (.badHeader m.len)) ∨
    (cfg.objFormat = .legacyBE ∧ headerGood m = true ∧
        headerCount m ≠ wholeWords cfg.objFormat m ∧
        checkStream cfg m = .error (.countMismatch (headerCount m) (wholeWords cfg.objFormat m))) ∨
    ((cfg.objFormat = .rawLE ∨ headerGood m = true ∧ headerCount m = wholeWords cfg.objFormat m) ∧
      (cfg.maxWords < wholeWords cfg.objFormat m ∧ checkStream cfg m = .error .streamTooLarge ∨
        wholeWords cfg.objFormat m ≤ cfg.maxWords ∧
          checkStream cfg m = .ok (partialWarnings cfg.objFormat m))) := by
  unfold checkStream
  cases hf : cfg.objFormat with
  | rawLE =>
    refine .inr (.inr ⟨.inl rfl, ?_⟩)
    dsimp only
    split_ifs with h
    · exact .inl ⟨h, rfl⟩
    · exact .inr ⟨by omega, rfl⟩
  | legacyBE =>
    dsimp only
    split_ifs with h1 h2 h3
    · exact .inr (.inr ⟨.inr ⟨h1, h2⟩, .inl ⟨h3, rfl⟩⟩)
    · exact .inr (.inr ⟨.inr ⟨h1, h2⟩, .inr ⟨by omega, rfl⟩⟩)
    · exact .inr (.inl ⟨rfl, h1, h2, rfl⟩)
    · exact .inl ⟨rfl, by simpa using h1, rfl⟩

end Sys2Proof.Machine
end

