-- ==== Sys2Proof/Laws/State.lean ====
section
/-! SUPPORT. One lemma per field per update of the state, each true by rfl, so that no proof unfolds an
update. -/

namespace Sys2Proof.Machine

variable (s : State)

/-! ### `State.failRun` -/

@[simp] theorem State.failRun_config (f : Failure) : (s.failRun f).config = s.config := rfl
@[simp] theorem State.failRun_env (f : Failure) : (s.failRun f).env = s.env := rfl
@[simp] theorem State.failRun_mode (f : Failure) : (s.failRun f).mode = s.mode := rfl
@[simp] theorem State.failRun_phase (f : Failure) : (s.failRun f).phase = s.phase := rfl
@[simp] theorem State.failRun_status (f : Failure) : (s.failRun f).status = .failed f := rfl
@[simp] theorem State.failRun_text (f : Failure) : (s.failRun f).text = s.text := rfl
@[simp] theorem State.failRun_stream (f : Failure) : (s.failRun f).stream = s.stream := rfl
@[simp] theorem State.failRun_lineNo (f : Failure) : (s.failRun f).lineNo = s.lineNo := rfl
@[simp] theorem State.failRun_words (f : Failure) : (s.failRun f).words = [] := rfl
@[simp] theorem State.failRun_index (f : Failure) : (s.failRun f).index = s.index := rfl
@[simp] theorem State.failRun_listing (f : Failure) : (s.failRun f).listing = [] := rfl
@[simp] theorem State.failRun_warnings (f : Failure) : (s.failRun f).warnings = [] := rfl

/-! ### `State.failLine` -/

@[simp] theorem State.failLine_config (c : LineCondition) (tok : Text) :
    (s.failLine c tok).config = s.config := rfl
@[simp] theorem State.failLine_env (c : LineCondition) (tok : Text) :
    (s.failLine c tok).env = s.env := rfl
@[simp] theorem State.failLine_mode (c : LineCondition) (tok : Text) :
    (s.failLine c tok).mode = s.mode := rfl
@[simp] theorem State.failLine_phase (c : LineCondition) (tok : Text) :
    (s.failLine c tok).phase = s.phase := rfl
@[simp] theorem State.failLine_status (c : LineCondition) (tok : Text) :
    (s.failLine c tok).status = .failed (.atLine c s.lineNo tok) := rfl
@[simp] theorem State.failLine_text (c : LineCondition) (tok : Text) :
    (s.failLine c tok).text = s.text := rfl
@[simp] theorem State.failLine_stream (c : LineCondition) (tok : Text) :
    (s.failLine c tok).stream = s.stream := rfl
@[simp] theorem State.failLine_lineNo (c : LineCondition) (tok : Text) :
    (s.failLine c tok).lineNo = s.lineNo := rfl
@[simp] theorem State.failLine_words (c : LineCondition) (tok : Text) :
    (s.failLine c tok).words = [] := rfl
@[simp] theorem State.failLine_index (c : LineCondition) (tok : Text) :
    (s.failLine c tok).index = s.index := rfl
@[simp] theorem State.failLine_listing (c : LineCondition) (tok : Text) :
    (s.failLine c tok).listing = [] := rfl
@[simp] theorem State.failLine_warnings (c : LineCondition) (tok : Text) :
    (s.failLine c tok).warnings = [] := rfl

/-! ### `State.emit` -/

@[simp] theorem State.emit_config (w : Word) : (s.emit w).config = s.config := rfl
@[simp] theorem State.emit_env (w : Word) : (s.emit w).env = s.env := rfl
@[simp] theorem State.emit_mode (w : Word) : (s.emit w).mode = s.mode := rfl
@[simp] theorem State.emit_phase (w : Word) : (s.emit w).phase = s.phase := rfl
@[simp] theorem State.emit_status (w : Word) : (s.emit w).status = s.status := rfl
@[simp] theorem State.emit_text (w : Word) : (s.emit w).text = s.text := rfl
@[simp] theorem State.emit_stream (w : Word) : (s.emit w).stream = s.stream := rfl
@[simp] theorem State.emit_lineNo (w : Word) : (s.emit w).lineNo = s.lineNo + 1 := rfl
@[simp] theorem State.emit_words (w : Word) : (s.emit w).words = s.words ++ [w] := rfl
@[simp] theorem State.emit_index (w : Word) : (s.emit w).index = s.index := rfl
@[simp] theorem State.emit_listing (w : Word) : (s.emit w).listing = s.listing := rfl
@[simp] theorem State.emit_warnings (w : Word) : (s.emit w).warnings = s.warnings := rfl

/-! ### `State.skipLine` -/

@[simp] theorem State.skipLine_config : (s.skipLine).config = s.config := rfl
@[simp] theorem State.skipLine_env : (s.skipLine).env = s.env := rfl
@[simp] theorem State.skipLine_mode : (s.skipLine).mode = s.mode := rfl
@[simp] theorem State.skipLine_phase : (s.skipLine).phase = s.phase := rfl
@[simp] theorem State.skipLine_status : (s.skipLine).status = s.status := rfl
@[simp] theorem State.skipLine_text : (s.skipLine).text = s.text := rfl
@[simp] theorem State.skipLine_stream : (s.skipLine).stream = s.stream := rfl
@[simp] theorem State.skipLine_lineNo : (s.skipLine).lineNo = s.lineNo + 1 := rfl
@[simp] theorem State.skipLine_words : (s.skipLine).words = s.words := rfl
@[simp] theorem State.skipLine_index : (s.skipLine).index = s.index := rfl
@[simp] theorem State.skipLine_listing : (s.skipLine).listing = s.listing := rfl
@[simp] theorem State.skipLine_warnings : (s.skipLine).warnings = s.warnings := rfl

/-! ### `State.warn` -/

@[simp] theorem State.warn_config (ws : List Warning) : (s.warn ws).config = s.config := rfl
@[simp] theorem State.warn_env (ws : List Warning) : (s.warn ws).env = s.env := rfl
@[simp] theorem State.warn_mode (ws : List Warning) : (s.warn ws).mode = s.mode := rfl
@[simp] theorem State.warn_phase (ws : List Warning) : (s.warn ws).phase = s.phase := rfl
@[simp] theorem State.warn_status (ws : List Warning) : (s.warn ws).status = s.status := rfl
@[simp] theorem State.warn_text (ws : List Warning) : (s.warn ws).text = s.text := rfl
@[simp] theorem State.warn_stream (ws : List Warning) : (s.warn ws).stream = s.stream := rfl
@[simp] theorem State.warn_lineNo (ws : List Warning) : (s.warn ws).lineNo = s.lineNo := rfl
@[simp] theorem State.warn_words (ws : List Warning) : (s.warn ws).words = s.words := rfl
@[simp] theorem State.warn_index (ws : List Warning) : (s.warn ws).index = s.index := rfl
@[simp] theorem State.warn_listing (ws : List Warning) : (s.warn ws).listing = s.listing := rfl
@[simp] theorem State.warn_warnings (ws : List Warning) :
    (s.warn ws).warnings = s.warnings ++ ws := rfl

/-! ### `State.list` -/

@[simp] theorem State.list_config (w : Word) (t : Text) : (s.list w t).config = s.config := rfl
@[simp] theorem State.list_env (w : Word) (t : Text) : (s.list w t).env = s.env := rfl
@[simp] theorem State.list_mode (w : Word) (t : Text) : (s.list w t).mode = s.mode := rfl
@[simp] theorem State.list_phase (w : Word) (t : Text) : (s.list w t).phase = s.phase := rfl
@[simp] theorem State.list_status (w : Word) (t : Text) : (s.list w t).status = s.status := rfl
@[simp] theorem State.list_text (w : Word) (t : Text) : (s.list w t).text = s.text := rfl
@[simp] theorem State.list_stream (w : Word) (t : Text) : (s.list w t).stream = s.stream := rfl
@[simp] theorem State.list_lineNo (w : Word) (t : Text) : (s.list w t).lineNo = s.lineNo := rfl
@[simp] theorem State.list_words (w : Word) (t : Text) : (s.list w t).words = s.words := rfl
@[simp] theorem State.list_index (w : Word) (t : Text) : (s.list w t).index = s.index + 1 := rfl
@[simp] theorem State.list_listing (w : Word) (t : Text) :
    (s.list w t).listing = s.listing ++ [listingLine s.config.listingHex (listingAddress s.index) w t] := rfl
@[simp] theorem State.list_warnings (w : Word) (t : Text) :
    (s.list w t).warnings = s.warnings := rfl

/-! ### `State.startLoop` -/

@[simp] theorem State.startLoop_config : (s.startLoop).config = s.config := rfl
@[simp] theorem State.startLoop_env : (s.startLoop).env = s.env := rfl
@[simp] theorem State.startLoop_mode : (s.startLoop).mode = s.mode := rfl
@[simp] theorem State.startLoop_phase : (s.startLoop).phase = .working := rfl
@[simp] theorem State.startLoop_status : (s.startLoop).status = s.status := rfl
@[simp] theorem State.startLoop_text : (s.startLoop).text = s.text := rfl
@[simp] theorem State.startLoop_stream : (s.startLoop).stream = s.stream := rfl
@[simp] theorem State.startLoop_lineNo : (s.startLoop).lineNo = s.lineNo := rfl
@[simp] theorem State.startLoop_words : (s.startLoop).words = s.words := rfl
@[simp] theorem State.startLoop_index : (s.startLoop).index = s.index := rfl
@[simp] theorem State.startLoop_listing : (s.startLoop).listing = s.listing := rfl
@[simp] theorem State.startLoop_warnings : (s.startLoop).warnings = s.warnings := rfl

/-! ### `State.finish` -/

@[simp] theorem State.finish_config : (s.finish).config = s.config := rfl
@[simp] theorem State.finish_env : (s.finish).env = s.env := rfl
@[simp] theorem State.finish_mode : (s.finish).mode = s.mode := rfl
@[simp] theorem State.finish_phase : (s.finish).phase = s.phase := rfl
@[simp] theorem State.finish_status : (s.finish).status = .done := rfl
@[simp] theorem State.finish_text : (s.finish).text = s.text := rfl
@[simp] theorem State.finish_stream : (s.finish).stream = s.stream := rfl
@[simp] theorem State.finish_lineNo : (s.finish).lineNo = s.lineNo := rfl
@[simp] theorem State.finish_words : (s.finish).words = s.words := rfl
@[simp] theorem State.finish_index : (s.finish).index = s.index := rfl
@[simp] theorem State.finish_listing : (s.finish).listing = s.listing := rfl
@[simp] theorem State.finish_warnings : (s.finish).warnings = s.warnings := rfl

/-! ### `State.writeObject` -/

@[simp] theorem State.writeObject_config : (s.writeObject).config = s.config := rfl
@[simp] theorem State.writeObject_env : (s.writeObject).env = s.env := rfl
@[simp] theorem State.writeObject_mode : (s.writeObject).mode = s.mode := rfl
@[simp] theorem State.writeObject_phase : (s.writeObject).phase = s.phase := rfl
@[simp] theorem State.writeObject_status : (s.writeObject).status = s.status := rfl
@[simp] theorem State.writeObject_text : (s.writeObject).text = s.text := rfl
@[simp] theorem State.writeObject_stream :
    (s.writeObject).stream = Memory.ofBytes (objectBytes s.config.objFormat s.words) := rfl
@[simp] theorem State.writeObject_lineNo : (s.writeObject).lineNo = s.lineNo := rfl
@[simp] theorem State.writeObject_words : (s.writeObject).words = s.words := rfl
@[simp] theorem State.writeObject_index : (s.writeObject).index = s.index := rfl
@[simp] theorem State.writeObject_listing : (s.writeObject).listing = s.listing := rfl
@[simp] theorem State.writeObject_warnings : (s.writeObject).warnings = s.warnings := rfl

/-! ### `State.withNextWord` -/

@[simp] theorem State.withNextWord_config (w : Word) : (s.withNextWord w).config = s.config := rfl
@[simp] theorem State.withNextWord_env (w : Word) : (s.withNextWord w).env = s.env := rfl
@[simp] theorem State.withNextWord_mode (w : Word) : (s.withNextWord w).mode = .disassembly := rfl
@[simp] theorem State.withNextWord_phase (w : Word) : (s.withNextWord w).phase = .working := rfl
@[simp] theorem State.withNextWord_status (w : Word) : (s.withNextWord w).status = .running := rfl
@[simp] theorem State.withNextWord_text (w : Word) : (s.withNextWord w).text = s.text := rfl
@[simp] theorem State.withNextWord_stream (w : Word) :
    (s.withNextWord w).stream = placeWord s.config.objFormat s.stream s.index w := rfl
@[simp] theorem State.withNextWord_lineNo (w : Word) : (s.withNextWord w).lineNo = s.lineNo := rfl
@[simp] theorem State.withNextWord_words (w : Word) : (s.withNextWord w).words = s.words := rfl
@[simp] theorem State.withNextWord_index (w : Word) : (s.withNextWord w).index = s.index := rfl
@[simp] theorem State.withNextWord_listing (w : Word) :
    (s.withNextWord w).listing = s.listing := rfl
@[simp] theorem State.withNextWord_warnings (w : Word) :
    (s.withNextWord w).warnings = s.warnings := rfl

/-! ### What is read from the state, after an update that leaves its fields alone -/

@[simp] theorem State.failRun_lines (f : Failure) : (s.failRun f).lines = s.lines := rfl
@[simp] theorem State.failRun_currentLine (f : Failure) :
    (s.failRun f).currentLine = s.currentLine := rfl
@[simp] theorem State.failRun_wordCount (f : Failure) : (s.failRun f).wordCount = s.wordCount := rfl
@[simp] theorem State.failRun_currentWord (f : Failure) :
    (s.failRun f).currentWord = s.currentWord := rfl
@[simp] theorem State.failLine_lines (c : LineCondition) (tok : Text) : (s.failLine c tok).lines = s.lines := rfl
@[simp] theorem State.failLine_currentLine (c : LineCondition) (tok : Text) :
    (s.failLine c tok).currentLine = s.currentLine := rfl
@[simp] theorem State.failLine_wordCount (c : LineCondition) (tok : Text) : (s.failLine c tok).wordCount = s.wordCount := rfl
@[simp] theorem State.failLine_currentWord (c : LineCondition) (tok : Text) :
    (s.failLine c tok).currentWord = s.currentWord := rfl
@[simp] theorem State.emit_lines (w : Word) : (s.emit w).lines = s.lines := rfl
@[simp] theorem State.emit_wordCount (w : Word) : (s.emit w).wordCount = s.wordCount := rfl
@[simp] theorem State.emit_currentWord (w : Word) :
    (s.emit w).currentWord = s.currentWord := rfl
@[simp] theorem State.skipLine_lines : (s.skipLine).lines = s.lines := rfl
@[simp] theorem State.skipLine_wordCount : (s.skipLine).wordCount = s.wordCount := rfl
@[simp] theorem State.skipLine_currentWord :
    (s.skipLine).currentWord = s.currentWord := rfl
@[simp] theorem State.warn_lines (ws : List Warning) : (s.warn ws).lines = s.lines := rfl
@[simp] theorem State.warn_currentLine (ws : List Warning) :
    (s.warn ws).currentLine = s.currentLine := rfl
@[simp] theorem State.warn_wordCount (ws : List Warning) : (s.warn ws).wordCount = s.wordCount := rfl
@[simp] theorem State.warn_currentWord (ws : List Warning) :
    (s.warn ws).currentWord = s.currentWord := rfl
@[simp] theorem State.list_lines (w : Word) (t : Text) : (s.list w t).lines = s.lines := rfl
@[simp] theorem State.list_currentLine (w : Word) (t : Text) :
    (s.list w t).currentLine = s.currentLine := rfl
@[simp] theorem State.list_wordCount (w : Word) (t : Text) : (s.list w t).wordCount = s.wordCount := rfl
@[simp] theorem State.startLoop_lines : (s.startLoop).lines = s.lines := rfl
@[simp] theorem State.startLoop_currentLine :
    (s.startLoop).currentLine = s.currentLine := rfl
@[simp] theorem State.startLoop_wordCount : (s.startLoop).wordCount = s.wordCount := rfl
@[simp] theorem State.startLoop_currentWord :
    (s.startLoop).currentWord = s.currentWord := rfl
@[simp] theorem State.finish_lines : (s.finish).lines = s.lines := rfl
@[simp] theorem State.finish_currentLine :
    (s.finish).currentLine = s.currentLine := rfl
@[simp] theorem State.finish_wordCount : (s.finish).wordCount = s.wordCount := rfl
@[simp] theorem State.finish_currentWord :
    (s.finish).currentWord = s.currentWord := rfl
@[simp] theorem State.writeObject_lines : (s.writeObject).lines = s.lines := rfl
@[simp] theorem State.writeObject_currentLine :
    (s.writeObject).currentLine = s.currentLine := rfl
@[simp] theorem State.withNextWord_lines (w : Word) : (s.withNextWord w).lines = s.lines := rfl
@[simp] theorem State.withNextWord_currentLine (w : Word) :
    (s.withNextWord w).currentLine = s.currentLine := rfl

/-! ### `State.reset` and the starts of a run -/

@[simp] theorem State.reset_config : State.reset.config = ({} : Config) := rfl
@[simp] theorem State.reset_env : State.reset.env = ({} : Environment) := rfl
@[simp] theorem State.reset_mode : State.reset.mode = .disassembly := rfl
@[simp] theorem State.reset_phase : State.reset.phase = .opening := rfl
@[simp] theorem State.reset_status : State.reset.status = .running := rfl
@[simp] theorem State.reset_text : State.reset.text = [] := rfl
@[simp] theorem State.reset_stream : State.reset.stream = [] := rfl
@[simp] theorem State.reset_lineNo : State.reset.lineNo = 1 := rfl
@[simp] theorem State.reset_words : State.reset.words = [] := rfl
@[simp] theorem State.reset_index : State.reset.index = 0 := rfl
@[simp] theorem State.reset_listing : State.reset.listing = [] := rfl
@[simp] theorem State.reset_warnings : State.reset.warnings = [] := rfl
@[simp] theorem beginAssembly_config (c : Config) (e : Environment) (t : Text) :
    (beginAssembly c e t).config = c := rfl
@[simp] theorem beginAssembly_env (c : Config) (e : Environment) (t : Text) :
    (beginAssembly c e t).env = e := rfl
@[simp] theorem beginAssembly_mode (c : Config) (e : Environment) (t : Text) :
    (beginAssembly c e t).mode = .assembly := rfl
@[simp] theorem beginAssembly_phase (c : Config) (e : Environment) (t : Text) :
    (beginAssembly c e t).phase = .opening := rfl
@[simp] theorem beginAssembly_status (c : Config) (e : Environment) (t : Text) :
    (beginAssembly c e t).status = .running := rfl
@[simp] theorem beginAssembly_text (c : Config) (e : Environment) (t : Text) :
    (beginAssembly c e t).text = t := rfl
@[simp] theorem beginAssembly_stream (c : Config) (e : Environment) (t : Text) :
    (beginAssembly c e t).stream = [] := rfl
@[simp] theorem beginAssembly_lineNo (c : Config) (e : Environment) (t : Text) :
    (beginAssembly c e t).lineNo = 1 := rfl
@[simp] theorem beginAssembly_words (c : Config) (e : Environment) (t : Text) :
    (beginAssembly c e t).words = [] := rfl
@[simp] theorem beginAssembly_index (c : Config) (e : Environment) (t : Text) :
    (beginAssembly c e t).index = 0 := rfl
@[simp] theorem beginAssembly_listing (c : Config) (e : Environment) (t : Text) :
    (beginAssembly c e t).listing = [] := rfl
@[simp] theorem beginAssembly_warnings (c : Config) (e : Environment) (t : Text) :
    (beginAssembly c e t).warnings = [] := rfl
@[simp] theorem beginDisassembly_config (c : Config) (e : Environment) (m : Memory) :
    (beginDisassembly c e m).config = c := rfl
@[simp] theorem beginDisassembly_env (c : Config) (e : Environment) (m : Memory) :
    (beginDisassembly c e m).env = e := rfl
@[simp] theorem beginDisassembly_mode (c : Config) (e : Environment) (m : Memory) :
    (beginDisassembly c e m).mode = .disassembly := rfl
@[simp] theorem beginDisassembly_phase (c : Config) (e : Environment) (m : Memory) :
    (beginDisassembly c e m).phase = .opening := rfl
@[simp] theorem beginDisassembly_status (c : Config) (e : Environment) (m : Memory) :
    (beginDisassembly c e m).status = .running := rfl
@[simp] theorem beginDisassembly_text (c : Config) (e : Environment) (m : Memory) :
    (beginDisassembly c e m).text = [] := rfl
@[simp] theorem beginDisassembly_stream (c : Config) (e : Environment) (m : Memory) :
    (beginDisassembly c e m).stream = m := rfl
@[simp] theorem beginDisassembly_lineNo (c : Config) (e : Environment) (m : Memory) :
    (beginDisassembly c e m).lineNo = 1 := rfl
@[simp] theorem beginDisassembly_words (c : Config) (e : Environment) (m : Memory) :
    (beginDisassembly c e m).words = [] := rfl
@[simp] theorem beginDisassembly_index (c : Config) (e : Environment) (m : Memory) :
    (beginDisassembly c e m).index = 0 := rfl
@[simp] theorem beginDisassembly_listing (c : Config) (e : Environment) (m : Memory) :
    (beginDisassembly c e m).listing = [] := rfl
@[simp] theorem beginDisassembly_warnings (c : Config) (e : Environment) (m : Memory) :
    (beginDisassembly c e m).warnings = [] := rfl

end Sys2Proof.Machine
end

