-- ==== Sys2Proof/Laws/Ops.lean ====
section
/-! SUPPORT. What each shared operation, each meaning and the step can do, said once: if it answers next
s', then one of these cases holds. -/

namespace Sys2Proof.Machine

variable {s s' : State}

/-! ### ENC and the token records -/

@[simp] theorem enc_tok (i : Instr) : enc i.tok = ⟨encode i, true⟩ := by cases i <;> rfl

@[simp] theorem instr?_tok (i : Instr) : i.tok.instr? = some i := by cases i <;> rfl

/-- A token record that selects an instruction gives that instruction's word. -/
theorem enc_of_instr? {t : Tok} {i : Instr} (h : t.instr? = some i) : enc t = ⟨encode i, true⟩ := by
  unfold Tok.instr? at h
  unfold enc
  split at h <;> simp only [Option.some.injEq, reduceCtorEq] at h <;> subst h <;>
    simp_all only [encode]

/-- A token record selects no instruction exactly when ENC has no arm for it (R164). -/
theorem enc_of_instr?_none {t : Tok} (h : t.instr? = none) : enc t = ⟨0, false⟩ := by
  unfold Tok.instr? at h
  unfold enc
  split at h <;> simp_all

/-! ### The two loop bodies -/

theorem assembleTok_cases {t : Tok} (h : assembleTok t s = .next s') :
    ∃ line, s.currentLine = some line ∧
      ((enc t).ok = false ∧ s' = s.failLine .unrecognizedSelector line ∨
        (enc t).ok = true ∧ s.words.length = s.config.maxWords ∧
          s' = s.failLine .programTooLarge line ∨
        (enc t).ok = true ∧ s.words.length ≠ s.config.maxWords ∧ s' = s.emit (enc t).word) := by
  unfold assembleTok at h
  split at h
  · cases h
  · rename_i line hl
    refine ⟨line, hl, ?_⟩
    split_ifs at h with h1 h2 <;> cases h
    · exact .inl ⟨h1, rfl⟩
    · exact .inr (.inl ⟨by simpa using h1, h2, rfl⟩)
    · exact .inr (.inr ⟨by simpa using h1, h2, rfl⟩)

theorem disassembleWord_cases {r : Word → DecRecord} (h : disassembleWord r s = .next s') :
    ∃ w, s.currentWord = some w ∧ s' = s.listRecord (r w) := by
  unfold disassembleWord at h
  split at h
  · cases h
  · exact ⟨_, ‹_›, by cases h; rfl⟩

theorem processInstr_cases {t : Tok} {r : Word → DecRecord} (h : processInstr t r s = .next s') :
    s.status = .running ∧
      (s.mode = .assembly ∧ assembleTok t s = .next s' ∨
        s.mode = .disassembly ∧ disassembleWord r s = .next s') := by
  unfold processInstr at h
  split at h
  · rename_i hs
    refine ⟨hs, ?_⟩
    split at h
    · exact .inl ⟨‹_›, h⟩
    · exact .inr ⟨‹_›, h⟩
  · cases h

/-! ### Every meaning is the shared operation on the instruction's own ports and record -/

theorem exec_eq (i : Instr) (s : State) : exec i s = processInstr i.tok i.record s := by
  cases i <;> rfl

theorem exec_assembly (i : Instr) (hs : s.status = .running) (hm : s.mode = .assembly) :
    exec i s = assembleTok i.tok s := by
  rw [exec_eq, processInstr, hs, hm]

theorem exec_disassembly (i : Instr) (hs : s.status = .running) (hm : s.mode = .disassembly) :
    exec i s = disassembleWord i.record s := by
  rw [exec_eq, processInstr, hs, hm]

/-- What an instruction can do when it answers a next state. -/
theorem exec_cases {i : Instr} (h : exec i s = .next s') :
    s.status = .running ∧
      (s.mode = .assembly ∧ (∃ line, s.currentLine = some line ∧
          (s.words.length = s.config.maxWords ∧ s' = s.failLine .programTooLarge line ∨
            s.words.length ≠ s.config.maxWords ∧ s' = s.emit (encode i))) ∨
        s.mode = .disassembly ∧ ∃ w, s.currentWord = some w ∧ s' = s.listRecord (i.record w)) := by
  rw [exec_eq] at h
  obtain ⟨hs, ⟨hm, h⟩ | ⟨hm, h⟩⟩ := processInstr_cases h
  · obtain ⟨line, hl, h⟩ := assembleTok_cases h
    simp only [enc_tok, false_and, true_and, false_or, Bool.true_eq_false] at h
    exact ⟨hs, .inl ⟨hm, line, hl, h⟩⟩
  · exact ⟨hs, .inr ⟨hm, disassembleWord_cases h⟩⟩

/-! ### A listing line -/

theorem State.listRecord_eq (s : State) (r : DecRecord) :
    s.listRecord r = { s with
      warnings := s.warnings ++ if r.isUnknown then [.unknownInstruction s.index r.raw] else []
      listing := s.listing ++ [listingLine s.config.listingHex (listingAddress s.index) r.raw
        (txt s.config.unknownText r)]
      index := s.index + 1 } := rfl

/-! ### The run -/

/-- Opening the input: the environment's failure, the loop, or what the stream's checks say. -/
theorem openRun_cases (s : State) :
    s.env.inputMissing = true ∧ openRun s = s.failRun .io ∨
    s.env.inputMissing = false ∧
      (s.mode = .assembly ∧ openRun s = s.startLoop ∨
        s.mode = .disassembly ∧
          ((∃ f, checkStream s.config s.stream = .error f ∧ openRun s = s.failRun f) ∨
            ∃ ws, checkStream s.config s.stream = .ok ws ∧ openRun s = (s.warn ws).startLoop)) := by
  unfold openRun
  split_ifs with h
  · exact .inl ⟨h, rfl⟩
  · refine .inr ⟨by simpa using h, ?_⟩
    split
    · exact .inl ⟨‹_›, rfl⟩
    · refine .inr ⟨‹_›, ?_⟩
      split
      · exact .inl ⟨_, ‹_›, rfl⟩
      · exact .inr ⟨_, ‹_›, rfl⟩

/-- One line of an assembly run, or its end. -/
theorem assembleStep_cases (h : assembleStep s = .next s') :
    (s.currentLine = none ∧ s' = endAssembly s) ∨
    ∃ line, s.currentLine = some line ∧
      (frontEnd line = .skip ∧ s' = s.skipLine ∨
        (∃ e, frontEnd line = .failed e ∧ s' = s.failLine e.code e.token) ∨
        (∃ t i, frontEnd line = .tok t ∧ t.instr? = some i ∧ exec i s = .next s') ∨
        ∃ t, frontEnd line = .tok t ∧ t.instr? = none ∧
          s' = s.failLine .unrecognizedSelector line) := by
  unfold assembleStep at h
  split at h
  · rename_i line hl
    refine .inr ⟨line, hl, ?_⟩
    unfold assembleResult at h
    split at h
    · exact .inl ⟨‹_›, by cases h; rfl⟩
    · exact .inr (.inl ⟨_, ‹_›, by cases h; rfl⟩)
    · split at h
      · exact .inr (.inr (.inl ⟨_, _, ‹_›, ‹_›, h⟩))
      · rename_i hi
        refine .inr (.inr (.inr ⟨_, ‹_›, hi, ?_⟩))
        obtain ⟨line', hl', h | h | h⟩ := assembleTok_cases h
        · obtain rfl : line = line' := by simpa [hl] using hl'
          exact h.2
        · simp [enc_of_instr?_none hi] at h
        · simp [enc_of_instr?_none hi] at h
  · exact .inl ⟨‹_›, by cases h; rfl⟩

/-- One word of a disassembly run, or its end. -/
theorem disassembleStep_cases (h : disassembleStep s = .next s') :
    (s.wordCount ≤ s.index ∧ s' = endDisassembly s) ∨
    s.index < s.wordCount ∧ ∃ w, s.currentWord = some w ∧
      ((∃ i, decode s.config.strictDecode w = .ok i ∧ exec i s = .next s') ∨
        ∃ e, decode s.config.strictDecode w = .error e ∧ s' = s.listRecord (recUnknown w)) := by
  unfold disassembleStep at h
  split_ifs at h with hi
  · refine .inr ⟨hi, ?_⟩
    split at h
    · cases h
    · rename_i w hw
      refine ⟨w, hw, ?_⟩
      split at h
      · exact .inl ⟨_, ‹_›, h⟩
      · refine .inr ⟨_, ‹_›, ?_⟩
        obtain ⟨w', hw', h⟩ := disassembleWord_cases h
        obtain rfl : w = w' := by simpa [hw] using hw'
        exact h
  · exact .inl ⟨by omega, by cases h; rfl⟩

/-- What a step can do. -/
theorem step_cases (h : step s = .next s') :
    (s.status ≠ .running ∧ s' = s) ∨
    s.status = .running ∧
      (s.phase = .opening ∧ s' = openRun s ∨
        s.phase = .working ∧
          (s.mode = .assembly ∧ assembleStep s = .next s' ∨
            s.mode = .disassembly ∧ disassembleStep s = .next s')) := by
  unfold step at h
  split at h
  · rename_i hs
    refine .inr ⟨hs, ?_⟩
    unfold runStep at h
    split at h
    · exact .inl ⟨‹_›, by cases h; rfl⟩
    · refine .inr ⟨‹_›, ?_⟩
      split at h
      · exact .inl ⟨‹_›, h⟩
      · exact .inr ⟨‹_›, h⟩
  · rename_i hs
    exact .inl ⟨hs, by cases h; rfl⟩

/-- The step in each phase and mode of a run that is RUNNING. -/
theorem step_opening (hs : s.status = .running) (hp : s.phase = .opening) :
    step s = .next (openRun s) := by
  rw [step, hs]; simp only [runStep, hp]

theorem step_assembly (hs : s.status = .running) (hp : s.phase = .working)
    (hm : s.mode = .assembly) : step s = assembleStep s := by
  rw [step, hs]; simp only [runStep, hp, hm]

theorem step_disassembly (hs : s.status = .running) (hp : s.phase = .working)
    (hm : s.mode = .disassembly) : step s = disassembleStep s := by
  rw [step, hs]; simp only [runStep, hp, hm]

end Sys2Proof.Machine
end

