-- ==== Sys2Proof/Laws/PerInstr.lean ====
section
/-! SUPPORT. Facts of every instruction as syntax, one lemma per constructor. -/

namespace Sys2Proof.Laws.EncodedOpcode

/-- The word of an instruction holds its mnemonic's opcode in bits 5:0 (R61), and that opcode is one of
the 11 defined. -/
def Statement (i : Instr) : Prop :=
  (encode i).opcode = i.mnemonic.opcode ∧ i.mnemonic.opcode.toNat ≤ 10

theorem halt : Statement .halt := ⟨rfl, Mnemonic.opcode_le _⟩
theorem add (rd rs1 rs2 : RegIndex) : Statement (.add rd rs1 rs2) := ⟨packA_opcode .., Mnemonic.opcode_le _⟩
theorem addi (rd rs1 : RegIndex) (imm : Imm) : Statement (.addi rd rs1 imm) :=
  ⟨packB_opcode .., Mnemonic.opcode_le _⟩
theorem bne (rs1 rs2 : RegIndex) (imm : Imm) : Statement (.bne rs1 rs2 imm) :=
  ⟨packC_opcode .., Mnemonic.opcode_le _⟩
theorem mul (rd rs1 rs2 : RegIndex) : Statement (.mul rd rs1 rs2) := ⟨packA_opcode .., Mnemonic.opcode_le _⟩
theorem lui (rd : RegIndex) (imm : Imm) : Statement (.lui rd imm) := ⟨packB_opcode .., Mnemonic.opcode_le _⟩
theorem lw (rd : RegIndex) (imm : Imm) (rs1 : RegIndex) : Statement (.lw rd imm rs1) :=
  ⟨packB_opcode .., Mnemonic.opcode_le _⟩
theorem sw (rs2 : RegIndex) (imm : Imm) (rs1 : RegIndex) : Statement (.sw rs2 imm rs1) :=
  ⟨packC_opcode .., Mnemonic.opcode_le _⟩
theorem blt (rs1 rs2 : RegIndex) (imm : Imm) : Statement (.blt rs1 rs2 imm) :=
  ⟨packC_opcode .., Mnemonic.opcode_le _⟩
theorem slli (rd rs1 : RegIndex) (imm : Imm) : Statement (.slli rd rs1 imm) :=
  ⟨packB_opcode .., Mnemonic.opcode_le _⟩
theorem sub (rd rs1 rs2 : RegIndex) : Statement (.sub rd rs1 rs2) := ⟨packA_opcode .., Mnemonic.opcode_le _⟩

end Sys2Proof.Laws.EncodedOpcode
end

