-- ==== Sys2Proof/Laws/Run.lean ====
section
/-! SUPPORT. Runs of many steps. -/

namespace Sys2Proof.Machine

variable {s t : State}

@[simp] theorem run_zero (s : State) : run 0 s = .next s := rfl

theorem run_succ (k : Nat) (s : State) :
    run (k + 1) s = match step s with
      | .next t => run k t
      | .fault r => .fault r
      | .refused r => .refused r := rfl

/-! The steps are the host's own run of the core. -/

theorem run_core_next (M : Host.Core) (k : Nat) (s : M.State) {t : M.State}
    (h : M.step s = .next t) : Host.Core.run M (k + 1) s = Host.Core.run M k t := by
  rw [Host.Core.run.eq_2, h]

theorem run_core_fault (M : Host.Core) (k : Nat) (s : M.State) {r : M.Fault}
    (h : M.step s = .fault r) : Host.Core.run M (k + 1) s = .fault r := by
  rw [Host.Core.run.eq_2, h]

theorem run_core_refused (M : Host.Core) (k : Nat) (s : M.State) {r : M.Refusal}
    (h : M.step s = .refused r) : Host.Core.run M (k + 1) s = .refused r := by
  rw [Host.Core.run.eq_2, h]

theorem run_eq_core (k : Nat) (s : State) : run k s = Host.Core.run Sys2Proof.core k s := by
  induction k generalizing s with
  | zero => rfl
  | succ k ih =>
    rw [run_succ]
    cases h : step s with
    | next t => exact (ih t).trans (run_core_next Sys2Proof.core k s h).symm
    | fault r => exact (run_core_fault Sys2Proof.core k s h).symm
    | refused r => exact (run_core_refused Sys2Proof.core k s h).symm

theorem run_succ_of_step (k : Nat) (h : step s = .next t) : run (k + 1) s = run k t := by
  rw [run_succ, h]

/-- A run that has ended stays as it is (log 4). -/
theorem step_ended (h : s.status ≠ .running) : step s = .next s := by
  unfold step
  split
  · contradiction
  · rfl

theorem run_ended (h : s.status ≠ .running) (k : Nat) : run k s = .next s := by
  induction k with
  | zero => rfl
  | succ k ih => rw [run_succ_of_step k (step_ended h), ih]

/-- The first step of some steps that all answer a next state. -/
theorem run_succ_next {k : Nat} (h : run (k + 1) s = .next t) :
    ∃ s', step s = .next s' ∧ run k s' = .next t := by
  rw [run_succ] at h
  split at h
  · exact ⟨_, ‹_›, h⟩
  · cases h
  · cases h

/-- What holds at the start and is kept by every step holds after any number of steps. -/
theorem run_induction {P : State → Prop} (keep : ∀ s t, P s → step s = .next t → P t) :
    ∀ (k : Nat) (s t : State), P s → run k s = .next t → P t
  | 0, s, t, hs, h => by cases h; exact hs
  | k + 1, s, t, hs, h => by
    obtain ⟨s', h1, h2⟩ := run_succ_next h
    exact run_induction keep k s' t (keep s s' hs h1) h2

end Sys2Proof.Machine
end

