-- ==== Sys2Proof/Laws/Text.lean ====
section
/-! SUPPORT. The text of numerals, operands and lines: what FE reads of what TXT prints (R76 to R85). -/

namespace Sys2Proof.Machine

/-! ### Digits -/

theorem decDigit?_eq_some {c : Char} {d : Nat} :
    decDigit? c = some d ↔ d < 10 ∧ c = Nat.digitChar d := by
  constructor
  · intro h
    unfold decDigit? at h
    split_ifs at h with hc
    obtain ⟨h0, h9⟩ := hc
    have h0 : 48 ≤ c.toNat := h0
    have h9 : c.toNat ≤ 57 := h9
    simp only [Option.some.injEq] at h
    have hd : c.toNat = 48 + d := by rw [← h]; simp; omega
    have hc : c = Char.ofNat (48 + d) := by rw [← hd, Char.ofNat_toNat]
    refine ⟨by omega, ?_⟩
    have : d < 10 := by omega
    subst hc
    interval_cases d <;> rfl
  · rintro ⟨hd, rfl⟩
    interval_cases d <;> rfl

theorem hexDigit?_eq_some {c : Char} {d : Nat} :
    hexDigit? c = some d ↔ d < 16 ∧ (c = Nat.digitChar d ∨ c = (Nat.digitChar d).toUpper) := by
  constructor
  · intro h
    unfold hexDigit? at h
    split_ifs at h with h1 h2 h3
    · have h0 : 48 ≤ c.toNat := h1.1
      have h9 : c.toNat ≤ 57 := h1.2
      simp only [Option.some.injEq] at h
      have hd : c.toNat = 48 + d := by rw [← h]; simp; omega
      have hc : c = Char.ofNat (48 + d) := by rw [← hd, Char.ofNat_toNat]
      have : d < 10 := by omega
      subst hc
      interval_cases d <;> decide
    · have h0 : 97 ≤ c.toNat := h2.1
      have h9 : c.toNat ≤ 102 := h2.2
      simp only [Option.some.injEq] at h
      have hd : c.toNat = 87 + d := by rw [← h]; simp; omega
      have hc : c = Char.ofNat (87 + d) := by rw [← hd, Char.ofNat_toNat]
      have : d < 16 := by omega
      have : 10 ≤ d := by omega
      subst hc
      interval_cases d <;> decide
    · have h0 : 65 ≤ c.toNat := h3.1
      have h9 : c.toNat ≤ 70 := h3.2
      simp only [Option.some.injEq] at h
      have hd : c.toNat = 55 + d := by rw [← h]; simp; omega
      have hc : c = Char.ofNat (55 + d) := by rw [← hd, Char.ofNat_toNat]
      have : d < 16 := by omega
      have : 10 ≤ d := by omega
      subst hc
      interval_cases d <;> decide
  · rintro ⟨hd, rfl | rfl⟩ <;> interval_cases d <;> decide

/-- A numeral is read exactly when every character is a digit; its value is that of the digits. -/
theorem digitsFrom_eq_some {base : Nat} {digit? : Char → Option Nat} {acc : Nat} {t : Text} {n : Nat} :
    digitsFrom base digit? acc t = some n ↔
      ∃ ds, List.Forall₂ (fun c d => digit? c = some d) t ds ∧
        n = Nat.ofDigits base ds.reverse + base ^ t.length * acc := by
  induction t generalizing acc with
  | nil => simp [digitsFrom, eq_comm]
  | cons c cs ih =>
    unfold digitsFrom
    split
    · rename_i d hd
      rw [ih]
      constructor
      · rintro ⟨ds, hds, rfl⟩
        refine ⟨d :: ds, .cons hd hds, ?_⟩
        simp only [List.reverse_cons, Nat.ofDigits_append, List.length_reverse, Nat.ofDigits_singleton,
          List.length_cons, ← hds.length_eq]
        ring
      · rintro ⟨ds', h', rfl⟩
        cases h' with
        | cons h1 h2 =>
          rename_i d' ds
          obtain rfl : d = d' := by simpa [hd] using h1
          refine ⟨ds, h2, ?_⟩
          simp only [List.reverse_cons, Nat.ofDigits_append, List.length_reverse,
            Nat.ofDigits_singleton, List.length_cons, ← h2.length_eq]
          ring
    · rename_i hd
      constructor
      · intro h; cases h
      · rintro ⟨ds, h, -⟩
        cases h with
        | cons h1 h2 => simp [hd] at h1

/-- A decimal numeral (R78, R79): one or more decimal digits. -/
theorem decNumeral?_eq_some {t : Text} {n : Nat} :
    decNumeral? t = some n ↔ ∃ ds : List Nat, ds ≠ [] ∧ (∀ d ∈ ds, d < 10) ∧
      t = ds.map Nat.digitChar ∧ n = Nat.ofDigits 10 ds.reverse := by
  unfold decNumeral?
  split_ifs with h
  · subst h
    simp only [false_iff, not_exists, not_and]
    rintro ds hds - h
    simp_all
  · rw [digitsFrom_eq_some]
    simp only [decDigit?_eq_some, Nat.mul_zero, Nat.add_zero]
    constructor
    · rintro ⟨ds, hds, rfl⟩
      have ht : t = ds.map Nat.digitChar ∧ ∀ d ∈ ds, d < 10 := by
        clear h
        induction hds with
        | nil => simp
        | cons h1 _ ih => simp [h1.1, h1.2, ih.1]; exact ih.2
      exact ⟨ds, by rintro rfl; simp_all, ht.2, ht.1, rfl⟩
    · rintro ⟨ds, hne, hds, rfl, rfl⟩
      refine ⟨ds, ?_, rfl⟩
      clear h hne
      induction ds with
      | nil => exact .nil
      | cons d ds ih =>
        exact .cons ⟨hds d (by simp), rfl⟩ (ih fun e he => hds e (by simp [he]))

/-- A hex numeral (R79): one or more hex digits in either case. -/
theorem hexNumeral?_eq_some {t : Text} {n : Nat} :
    hexNumeral? t = some n ↔ ∃ ds : List Nat, ds ≠ [] ∧ (∀ d ∈ ds, d < 16) ∧
      List.Forall₂ (fun c d => c = Nat.digitChar d ∨ c = (Nat.digitChar d).toUpper) t ds ∧
      n = Nat.ofDigits 16 ds.reverse := by
  unfold hexNumeral?
  split_ifs with h
  · subst h
    simp only [false_iff, not_exists, not_and]
    rintro ds hds - h
    cases h; simp_all
  · rw [digitsFrom_eq_some]
    simp only [hexDigit?_eq_some, Nat.mul_zero, Nat.add_zero]
    constructor
    · rintro ⟨ds, hds, rfl⟩
      refine ⟨ds, by rintro rfl; cases hds; simp_all, ?_, hds.imp fun _ _ h => h.2, rfl⟩
      clear h
      induction hds with
      | nil => simp
      | cons h1 _ ih => simp [h1.1]; exact ih
    · rintro ⟨ds, hne, hds, hf, rfl⟩
      refine ⟨ds, ?_, rfl⟩
      clear h hne
      induction hf with
      | nil => exact .nil
      | cons h1 _ ih => exact .cons ⟨hds _ (by simp), h1⟩ (ih fun e he => hds e (by simp [he]))

/-! ### Decimal rendering -/

theorem decChar_eq_digitChar {d : Nat} (h : d < 10) : decChar d = Nat.digitChar d := by
  interval_cases d <;> rfl

theorem decDigitsOnto_eq (fuel n : Nat) (acc : Text) (h : n < fuel) :
    decDigitsOnto fuel n acc =
      (if n = 0 then [0] else (Nat.digits 10 n).reverse).map Nat.digitChar ++ acc := by
  induction fuel generalizing n acc with
  | zero => omega
  | succ fuel ih =>
    have hm : n % 10 < 10 := Nat.mod_lt _ (by omega)
    unfold decDigitsOnto
    split_ifs with h1 h2 h2
    · subst h2; rfl
    · rw [decChar_eq_digitChar hm, Nat.digits_of_lt 10 n h2 (by omega), Nat.mod_eq_of_lt (by omega)]
      rfl
    · omega
    · rw [ih _ _ (by omega), if_neg h1, decChar_eq_digitChar hm,
        Nat.digits_of_two_le_of_pos (b := 10) (n := n) (by omega) (by omega)]
      simp

/-- The digits of a natural number as TXT prints them (R84). -/
theorem decNat_eq (n : Nat) :
    decNat n = (if n = 0 then [0] else (Nat.digits 10 n).reverse).map Nat.digitChar := by
  simpa [decNat] using decDigitsOnto_eq (n + 1) n [] (by omega)

/-- Printed and read again (R84, R79). -/
@[simp] theorem decNumeral?_decNat (n : Nat) : decNumeral? (decNat n) = some n := by
  rw [decNumeral?_eq_some, decNat_eq]
  split_ifs with h
  · subst h; exact ⟨[0], by simp, by simp, rfl, rfl⟩
  · refine ⟨_, ?_, ?_, rfl, ?_⟩
    · simpa using Nat.digits_ne_nil_iff_ne_zero.2 h
    · intro d hd
      exact Nat.digits_lt_base (by omega) (by simpa using hd)
    · rw [List.reverse_reverse, Nat.ofDigits_digits]

/-- Every character TXT prints of a natural number is a decimal digit. -/
theorem mem_decNat {n : Nat} {c : Char} (h : c ∈ decNat n) : ∃ d < 10, c = Nat.digitChar d := by
  rw [decNat_eq] at h
  obtain ⟨d, hd, rfl⟩ := List.mem_map.1 h
  refine ⟨d, ?_, rfl⟩
  split_ifs at hd with hn
  · simp_all
  · exact Nat.digits_lt_base (by omega) (by simpa using hd)

theorem decNat_ne_nil (n : Nat) : decNat n ≠ [] := by
  intro h
  have := decNumeral?_decNat n
  simp [h, decNumeral?] at this

theorem magnitude?_decNat (n : Nat) : magnitude? (decNat n) = some n := by
  have h2 : decNumeral? (decNat n) = some n := decNumeral?_decNat n
  unfold magnitude?
  split
  · rename_i h heq
    have : 'x' ∈ decNat n := by rw [heq]; simp
    obtain ⟨d, hd, hx⟩ := mem_decNat this
    interval_cases d <;> simp [Nat.digitChar] at hx
  · rename_i h heq
    have : 'X' ∈ decNat n := by rw [heq]; simp
    obtain ⟨d, hd, hx⟩ := mem_decNat this
    interval_cases d <;> simp [Nat.digitChar] at hx
  · exact h2

theorem immValue?_decNat (n : Nat) : immValue? (decNat n) = some (n : Int) := by
  have h2 := magnitude?_decNat n
  unfold immValue?
  split
  · rename_i m heq
    have : '+' ∈ decNat n := by rw [heq]; simp
    obtain ⟨d, hd, hx⟩ := mem_decNat this
    interval_cases d <;> simp [Nat.digitChar] at hx
  · rename_i m heq
    have : '-' ∈ decNat n := by rw [heq]; simp
    obtain ⟨d, hd, hx⟩ := mem_decNat this
    interval_cases d <;> simp [Nat.digitChar] at hx
  · rw [h2]; rfl

/-- Printed and read again, with a sign (R84, R79). -/
@[simp] theorem immValue?_decInt (v : Int) : immValue? (decInt v) = some v := by
  cases v with
  | ofNat n => exact immValue?_decNat n
  | negSucc n =>
    change (magnitude? (decNat (n + 1))).map (fun k : Nat => -(k : Int)) = _
    rw [magnitude?_decNat, Option.map_some, Int.negSucc_eq]
    simp

@[simp] theorem readReg_regText (r : RegIndex) : readReg (regText r) = .ok r := by
  simp [readReg, regText, regNumeral?]

@[simp] theorem readImm_immText (imm : Imm) : readImm (immText imm) = .ok imm := by
  simp [readImm, immText]

/-! ### Lines -/

/-- A character that no step of FE treats specially. -/
def isPlain (c : Char) : Bool := c ≠ ' ' && c ≠ '\t' && c ≠ ',' && c ≠ '#' && c ≠ '\r' && c ≠ '\n'

/-- A non-empty text of plain characters: an operand as TXT prints it. -/
def PlainText (t : Text) : Prop := t ≠ [] ∧ ∀ c ∈ t, isPlain c = true

theorem isBlank_of_isPlain {c : Char} (h : isPlain c = true) : isBlank c = false := by
  simp [isPlain, isBlank] at *
  tauto

theorem isPlain_digitChar {d : Nat} (h : d < 10) : isPlain (Nat.digitChar d) = true := by
  interval_cases d <;> decide

theorem plain_decNat {n : Nat} {c : Char} (h : c ∈ decNat n) : isPlain c = true := by
  obtain ⟨d, hd, rfl⟩ := mem_decNat h
  exact isPlain_digitChar hd

theorem plain_decInt {v : Int} {c : Char} (h : c ∈ decInt v) : isPlain c = true := by
  cases v with
  | ofNat n => exact plain_decNat h
  | negSucc n =>
    rcases List.mem_cons.1 h with rfl | h
    · decide
    · exact plain_decNat h

theorem decInt_ne_nil (v : Int) : decInt v ≠ [] := by
  cases v with
  | ofNat n => exact decNat_ne_nil n
  | negSucc n => simp [decInt]

theorem plainText_regText (r : RegIndex) : PlainText (regText r) := by
  refine ⟨by simp [regText], fun c h => ?_⟩
  rcases List.mem_cons.1 h with rfl | h
  · decide
  · exact plain_decNat h

theorem plainText_immText (imm : Imm) : PlainText (immText imm) :=
  ⟨decInt_ne_nil _, fun _ h => plain_decInt h⟩

theorem plainText_memText (imm : Imm) (r : RegIndex) : PlainText (memText imm r) := by
  refine ⟨by simp [memText], fun c h => ?_⟩
  simp only [memText, List.mem_append, List.mem_cons, List.not_mem_nil, or_false] at h
  rcases h with (h | rfl | h) | rfl
  · exact (plainText_immText imm).2 c h
  · decide
  · exact (plainText_regText r).2 c h
  · decide

theorem plainText_mnemonic (m : Mnemonic) : PlainText m.text := by
  cases m <;> simp [PlainText, Mnemonic.text, isPlain]

/-- Text whose first and last characters are no whitespace is its own stripping. -/
theorem strip_eq_self {t : Text} (h1 : ∀ c ∈ t.head?, isBlank c = false)
    (h2 : ∀ c ∈ t.getLast?, isBlank c = false) : strip t = t := by
  have hd : ∀ u : Text, (∀ c ∈ u.head?, isBlank c = false) → u.dropWhile isBlank = u := by
    intro u hu
    cases u with
    | nil => rfl
    | cons c cs => simp [hu c (by simp)]
  rw [strip, hd t h1, stripRight, hd t.reverse (by simpa using h2), List.reverse_reverse]

theorem strip_blank_cons {c : Char} (h : isBlank c = true) (t : Text) : strip (c :: t) = strip t := by
  simp [strip, h]

theorem strip_plain {t : Text} (h : PlainText t) : strip t = t :=
  strip_eq_self (fun c hc => isBlank_of_isPlain (h.2 c (List.mem_of_mem_head? hc)))
    (fun c hc => isBlank_of_isPlain (h.2 c (List.mem_of_mem_getLast? hc)))

/-- The pieces between separators of a text with none is the text. -/
theorem splitAtChar_eq_singleton {sep : Char} {t : Text} (h : sep ∉ t) : splitAtChar sep t = [t] := by
  induction t with
  | nil => rfl
  | cons c cs ih =>
    simp only [List.mem_cons, not_or] at h
    simp [splitAtChar, ih h.2, Ne.symm h.1]

/-- The pieces of a text with a separator after a piece without one. -/
theorem splitAtChar_append {sep : Char} {t : Text} (h : sep ∉ t) (u : Text) :
    splitAtChar sep (t ++ sep :: u) = t :: splitAtChar sep u := by
  induction t with
  | nil => simp [splitAtChar]
  | cons c cs ih =>
    simp only [List.mem_cons, not_or] at h
    simp [splitAtChar, ih h.2, Ne.symm h.1]

/-- Pieces without the separator, joined by it, are the pieces. -/
theorem splitAtChar_intercalate {sep : Char} {ts : List Text} (hne : ts ≠ []) (h : ∀ t ∈ ts, sep ∉ t) :
    splitAtChar sep ([sep].intercalate ts) = ts := by
  induction ts with
  | nil => contradiction
  | cons t ts ih =>
    cases ts with
    | nil => simpa [List.intercalate] using splitAtChar_eq_singleton (h t (by simp))
    | cons u us =>
      have : [sep].intercalate (t :: u :: us) = t ++ sep :: [sep].intercalate (u :: us) := by
        simp [List.intercalate, List.intersperse]
      rw [this, splitAtChar_append (h t (by simp)), ih (by simp) fun v hv => h v (by simp [hv])]

theorem intercalate_cons_cons (sep t u : Text) (us : List Text) :
    sep.intercalate (t :: u :: us) = t ++ sep ++ sep.intercalate (u :: us) := by
  simp [List.intercalate, List.intersperse]

/-- Plain operands joined as TXT joins them are read back one by one (R76, R83). -/
theorem operandTokens_intercalate {ops : List Text} (hne : ops ≠ []) (h : ∀ t ∈ ops, PlainText t) :
    operandTokens ([',', ' '].intercalate ops) = ops := by
  have hcomma : ∀ t, PlainText t → ',' ∉ t := fun t ht hc => by simpa [isPlain] using ht.2 _ hc
  have key : ∀ ops : List Text, ops ≠ [] → (∀ t ∈ ops, PlainText t) →
      (splitAtChar ',' ([',', ' '].intercalate ops)).map strip = ops := by
    intro ops hne h
    induction ops with
    | nil => contradiction
    | cons t ts ih =>
      have ht := h t (by simp)
      cases ts with
      | nil =>
        simp [List.intercalate, splitAtChar_eq_singleton (hcomma t ht), strip_plain ht]
      | cons u us =>
        have ih := ih (by simp) fun v hv => h v (by simp [hv])
        rw [intercalate_cons_cons, List.append_assoc, List.cons_append, List.cons_append, List.nil_append,
          splitAtChar_append (hcomma t ht), List.map_cons, strip_plain ht]
        have hsp : splitAtChar ',' (' ' :: [',', ' '].intercalate (u :: us)) =
            match splitAtChar ',' ([',', ' '].intercalate (u :: us)) with
            | [] => [[' ']]
            | p :: ps => (' ' :: p) :: ps := rfl
        rw [hsp]
        congr 1
        split
        · rename_i heq; simp [heq] at ih
        · rename_i p ps heq
          rw [heq, List.map_cons] at ih
          rw [List.map_cons, strip_blank_cons (by decide), ih]
  unfold operandTokens
  rw [if_neg, key ops hne h]
  intro h0
  have := key ops hne h
  rw [h0] at this
  cases ops with
  | nil => contradiction
  | cons t ts =>
    have ht := h t (by simp)
    simp only [splitAtChar, List.map_cons, List.cons.injEq] at this
    exact ht.1 (by rw [← this.1]; rfl)


/-! ### MEM operands -/

theorem takeWhile_before {c : Char} {a b : Text} (h : c ∉ a) :
    (a ++ c :: b).takeWhile (· ≠ c) = a ∧ (a ++ c :: b).dropWhile (· ≠ c) = c :: b := by
  induction a with
  | nil => simp
  | cons d a ih =>
    simp only [List.mem_cons, not_or] at h
    have := ih h.2
    simp only [List.cons_append, List.takeWhile_cons, List.dropWhile_cons]
    simp_all [Ne.symm h.1]

/-- The parts of a MEM token of the right shape (R80). -/
theorem memParts {a r : Text} (ha : '(' ∉ a) :
    memImmPart (a ++ '(' :: (r ++ [')'])) = a ∧ memRegPart (a ++ '(' :: (r ++ [')'])) = r := by
  have h := takeWhile_before (c := '(') (b := r ++ [')']) ha
  exact ⟨h.1, by rw [memRegPart, h.2]; simp⟩

/-- The shape test of R80, said by the token's parts. -/
theorem memShape_iff {token : Text} :
    memShape token = true ↔ ∃ a r, a ≠ [] ∧ r ≠ [] ∧ '(' ∉ a ∧ ')' ∉ a ∧ '(' ∉ r ∧ ')' ∉ r ∧
      token = a ++ '(' :: (r ++ [')']) := by
  simp only [memShape, Bool.and_eq_true, decide_eq_true_eq]
  constructor
  · rintro ⟨⟨⟨⟨h1, h2⟩, h3⟩, h4⟩, h5⟩
    obtain ⟨u, rfl⟩ : ∃ u, token = u ++ [')'] := by
      obtain ⟨hne, hl⟩ := List.getLast?_eq_some_iff.1 h3 |>.imp fun _ h => h
      exact ⟨_, hl⟩
    have hu2 : ')' ∉ u := by
      rw [List.count_append] at h2
      exact List.count_eq_zero.1 (by simpa using h2)
    have hu1 : u.count '(' = 1 := by simpa using h1
    obtain ⟨a, r, rfl, ha⟩ := List.eq_append_cons_of_mem
      (List.count_pos_iff.1 (show 0 < u.count '(' by omega))
    have hr : '(' ∉ r := by
      simp only [List.count_append, List.count_cons_self] at hu1
      exact List.count_eq_zero.1 (by omega)
    simp only [List.mem_append, List.mem_cons, not_or] at hu2
    have hp := memParts (r := r) ha
    simp only [List.append_assoc, List.cons_append] at h4 h5
    rw [hp.1] at h4
    rw [hp.2] at h5
    exact ⟨a, r, h4, h5, ha, hu2.1, hr, hu2.2.2, by simp⟩
  · rintro ⟨a, r, ha, hr, ha1, ha2, hr1, hr2, rfl⟩
    have hp := memParts (r := r) ha1
    rw [hp.1, hp.2]
    refine ⟨⟨⟨⟨?_, ?_⟩, ?_⟩, ha⟩, hr⟩
    · simp [List.count_eq_zero.2 ha1, List.count_eq_zero.2 hr1]
    · simp [List.count_eq_zero.2 ha2, List.count_eq_zero.2 hr2]
    · rw [show a ++ '(' :: (r ++ [')']) = (a ++ '(' :: r) ++ [')'] by simp, List.getLast?_concat]

/-- A MEM token of the right shape is read immediate first (R80). -/
theorem readMem_parts {a r : Text} (ha : a ≠ []) (hr : r ≠ []) (ha1 : '(' ∉ a) (ha2 : ')' ∉ a)
    (hr1 : '(' ∉ r) (hr2 : ')' ∉ r) :
    readMem (a ++ '(' :: (r ++ [')'])) =
      match readImm a with
      | .error e => .error e
      | .ok imm =>
        match readReg r with
        | .error e => .error e
        | .ok reg => .ok (imm, reg) := by
  have hp := memParts (r := r) ha1
  rw [readMem, if_pos (memShape_iff.2 ⟨a, r, ha, hr, ha1, ha2, hr1, hr2, rfl⟩), hp.1, hp.2]
  all_goals cases readImm a <;> cases readReg r <;> rfl

theorem noParen_decNat (n : Nat) : '(' ∉ decNat n ∧ ')' ∉ decNat n := by
  constructor <;> intro h <;> obtain ⟨d, hd, hx⟩ := mem_decNat h <;>
    interval_cases d <;> simp [Nat.digitChar] at hx

theorem noParen_decInt (v : Int) : '(' ∉ decInt v ∧ ')' ∉ decInt v := by
  cases v with
  | ofNat n => exact noParen_decNat n
  | negSucc n => simpa [decInt] using noParen_decNat (n + 1)

@[simp] theorem readMem_memText (imm : Imm) (r : RegIndex) : readMem (memText imm r) = .ok (imm, r) := by
  have h1 := noParen_decInt imm.toInt
  have h2 := noParen_decNat r.toNat
  rw [show memText imm r = immText imm ++ '(' :: (regText r ++ [')']) from by simp [memText],
    readMem_parts (plainText_immText imm).1 (plainText_regText r).1 h1.1 h1.2 (by simpa [regText] using h2.1)
      (by simpa [regText] using h2.2)]
  simp

/-! ### FE on a line as TXT prints it -/

@[simp] theorem mnemonic?_text (m : Mnemonic) : mnemonic? m.text = some m := by cases m <;> rfl

theorem text_of_mnemonic? {t : Text} {m : Mnemonic} (h : mnemonic? t = some m) : t = m.text := by
  have := List.find?_some h
  simpa [eq_comm] using this

theorem preprocess_eq_self {t : Text} (h1 : ∀ c ∈ t.head?, isBlank c = false)
    (h2 : ∀ c ∈ t.getLast?, isBlank c = false ∧ c ≠ '\r') (h3 : '#' ∉ t) : preprocess t = t := by
  have hcr : dropCR t = t := by
    unfold dropCR
    split_ifs with h
    · exact absurd rfl (h2 _ h).2
    · rfl
  have hc : t.takeWhile (· ≠ '#') = t := by
    rw [List.takeWhile_eq_self_iff]
    intro c hc
    simp only [decide_eq_true_eq]
    rintro rfl
    exact h3 hc
  rw [preprocess, hcr, hc]
  exact strip_eq_self h1 fun c hc => (h2 c hc).1

theorem mem_intercalate {sep : Text} {ts : List Text} {c : Char} (h : c ∈ sep.intercalate ts) :
    c ∈ sep ∨ ∃ t ∈ ts, c ∈ t := by
  induction ts with
  | nil => simp [List.intercalate] at h
  | cons t ts ih =>
    cases ts with
    | nil => exact .inr ⟨t, by simp, by simpa [List.intercalate] using h⟩
    | cons u us =>
      rw [intercalate_cons_cons, List.append_assoc, List.mem_append, List.mem_append] at h
      rcases h with h | h | h
      · exact .inr ⟨t, by simp, h⟩
      · exact .inl h
      · rcases ih h with h | ⟨v, hv, hc⟩
        · exact .inl h
        · exact .inr ⟨v, by simp [hv], hc⟩

theorem getLast?_intercalate {sep : Text} {ts : List Text} (hne : ts ≠ []) (h : ∀ t ∈ ts, t ≠ []) :
    ∃ t ∈ ts, (sep.intercalate ts).getLast? = t.getLast? := by
  induction ts with
  | nil => contradiction
  | cons t ts ih =>
    cases ts with
    | nil => exact ⟨t, by simp, by simp [List.intercalate]⟩
    | cons u us =>
      obtain ⟨v, hv, hl⟩ := ih (by simp) fun w hw => h w (by simp [hw])
      refine ⟨v, by simp [hv], ?_⟩
      obtain ⟨c, hc⟩ : ∃ c, v.getLast? = some c := by
        cases hvl : v.getLast? with
        | none => exact absurd (List.getLast?_eq_none_iff.1 hvl) (h v (by simp [hv]))
        | some c => exact ⟨c, rfl⟩
      rw [intercalate_cons_cons, List.getLast?_append, hl, hc]
      rfl

theorem head?_intercalate {sep : Text} {t : Text} {ts : List Text} (h : t ≠ []) :
    (sep.intercalate (t :: ts)).head? = t.head? := by
  cases t with
  | nil => contradiction
  | cons c cs => cases ts <;> simp [List.intercalate, List.intersperse]

theorem takeWhile_mnemonic (m : Mnemonic) (u : Text) :
    (m.text ++ ' ' :: u).takeWhile (!isBlank ·) = m.text ∧
      (m.text ++ ' ' :: u).dropWhile (!isBlank ·) = ' ' :: u := by
  cases m <;> exact ⟨rfl, rfl⟩

theorem ne_nil_lineText (m : Mnemonic) (ops : List Text) : lineText m ops ≠ [] := by
  simp [lineText]

/-- FE on a line as TXT prints it: its operands are what bindOperands gets. -/
theorem frontEnd_lineText (m : Mnemonic) {ops : List Text} (hne : ops ≠ []) (h : ∀ t ∈ ops, PlainText t)
    (hl : ops.length = (operandKinds m).length) : frontEnd (lineText m ops) = bindOperands m ops := by
  obtain ⟨o, hlast, hget⟩ := getLast?_intercalate (sep := [',', ' ']) hne fun t ht => (h t ht).1
  have hpre : preprocess (lineText m ops) = lineText m ops := by
    refine preprocess_eq_self ?_ ?_ ?_
    · cases m <;> simp [lineText, Mnemonic.text, isBlank]
    · intro c hc
      rw [lineText, List.getLast?_append] at hc
      have hc : c ∈ o.getLast? := by
        cases hog : o.getLast? with
        | none => exact absurd (List.getLast?_eq_none_iff.1 hog) (h o hlast).1
        | some d =>
          rw [List.getLast?_cons, hget, hog] at hc
          simpa using hc
      have hp := (h o hlast).2 c (List.mem_of_mem_getLast? hc)
      exact ⟨isBlank_of_isPlain hp, by rintro rfl; simp [isPlain] at hp⟩
    · intro hmem
      rw [lineText, List.mem_append, List.mem_cons] at hmem
      rcases hmem with hm | hm | hm
      · have := (plainText_mnemonic m).2 _ hm
        simp [isPlain] at this
      · simp at hm
      · rcases mem_intercalate hm with hm | ⟨t, ht, hm⟩
        · simp at hm
        · have := (h t ht).2 _ hm
          simp [isPlain] at this
  have hstrip : strip (' ' :: [',', ' '].intercalate ops) = [',', ' '].intercalate ops := by
    rw [strip_blank_cons (by decide)]
    refine strip_eq_self ?_ ?_
    · intro c hc
      cases ops with
      | nil => contradiction
      | cons t ts =>
        rw [head?_intercalate (h t (by simp)).1] at hc
        exact isBlank_of_isPlain ((h t (by simp)).2 c (List.mem_of_mem_head? hc))
    · intro c hc
      rw [hget] at hc
      exact isBlank_of_isPlain ((h o hlast).2 c (List.mem_of_mem_getLast? hc))
  have hops := operandTokens_intercalate hne h
  have hnil : [] ∉ ops := fun hmem => (h [] hmem).1 rfl
  rw [frontEnd, hpre, frontEndStripped, if_neg (ne_nil_lineText m ops)]
  have hmn : mnemonicToken (lineText m ops) = m.text := (takeWhile_mnemonic m _).1
  have hrest : operandText (lineText m ops) = [',', ' '].intercalate ops := by
    rw [operandText, lineText, (takeWhile_mnemonic m _).2, hstrip]
  rw [hmn, mnemonic?_text]
  simp only [hrest, hops]
  rw [if_neg hnil, if_neg (by simpa using hl)]

/-! ### The listing is ASCII (R10, R176) -/

@[simp] theorem isAscii_nil : Text.isAscii [] = true := rfl

@[simp] theorem isAscii_cons (c : Char) (t : Text) :
    Text.isAscii (c :: t) = (decide (c.toNat < 128) && Text.isAscii t) := rfl

@[simp] theorem isAscii_append (t u : Text) :
    Text.isAscii (t ++ u) = (Text.isAscii t && Text.isAscii u) :=
  List.all_append

theorem isAscii_of_mem {t : Text} (h : ∀ c ∈ t, c.toNat < 128) : Text.isAscii t = true := by
  simpa [Text.isAscii] using h

@[simp] theorem isAscii_decNat (n : Nat) : Text.isAscii (decNat n) = true := by
  refine isAscii_of_mem fun c hc => ?_
  obtain ⟨d, hd, rfl⟩ := mem_decNat hc
  interval_cases d <;> decide

@[simp] theorem isAscii_decInt (v : Int) : Text.isAscii (decInt v) = true := by
  cases v <;> simp [decInt]

@[simp] theorem isAscii_regText (r : RegIndex) : Text.isAscii (regText r) = true := by
  simp [regText]

@[simp] theorem isAscii_immText (imm : Imm) : Text.isAscii (immText imm) = true := by
  simp [immText]

@[simp] theorem isAscii_memText (imm : Imm) (r : RegIndex) : Text.isAscii (memText imm r) = true := by
  simp [memText]

theorem isAscii_intercalate {sep : Text} {ts : List Text} (hs : Text.isAscii sep = true)
    (h : ∀ t ∈ ts, Text.isAscii t = true) : Text.isAscii (sep.intercalate ts) = true := by
  simp only [Text.isAscii, List.all_eq_true] at *
  intro c hc
  rcases mem_intercalate hc with hc | ⟨t, ht, hc⟩
  · exact hs c hc
  · exact h t ht c hc

theorem isAscii_lineText (m : Mnemonic) {ops : List Text} (h : ∀ t ∈ ops, Text.isAscii t = true) :
    Text.isAscii (lineText m ops) = true := by
  have hm : Text.isAscii m.text = true := by cases m <;> decide
  simp [lineText, hm, isAscii_intercalate (sep := [',', ' ']) (by decide) h]

/-- TXT prints ASCII. -/
theorem isAscii_txt {unknownText : Text} (h : Text.isAscii unknownText = true) (r : DecRecord) :
    Text.isAscii (txt unknownText r) = true := by
  unfold txt
  split <;> first | exact h | decide | exact isAscii_lineText _ (by simp)

theorem isAscii_hexChar {d : Nat} (h : d < 16) : (hexChar d).toNat < 128 := by
  interval_cases d <;> decide

@[simp] theorem isAscii_hexDigits (digits n : Nat) : Text.isAscii (hexDigits digits n) = true := by
  induction digits generalizing n with
  | zero => rfl
  | succ k ih => simp [hexDigits, ih, isAscii_hexChar (Nat.mod_lt n (by decide : 0 < 16))]

@[simp] theorem isAscii_asciiText (codes : AsciiCodes) : Text.isAscii (asciiText codes) = true := by
  refine isAscii_of_mem fun c hc => ?_
  obtain ⟨d, -, rfl⟩ := List.mem_map.1 hc
  have := d.isLt
  rw [Char.toNat_ofNat, if_pos (by left; omega)]
  exact this

@[simp] theorem isAscii_listingHex (style : HexStyle) (w : Word) :
    Text.isAscii (listingHex style w) = true := by
  cases style <;> simp [listingHex]

/-- A listing line is ASCII when its text is, whatever LISTING_HEX is. -/
@[simp] theorem isAscii_listingLine (style : HexStyle) (a w : Word) (t : Text) :
    Text.isAscii (listingLine style a w t) = Text.isAscii t := by
  simp [listingLine]

@[simp] theorem length_hexDigits (digits n : Nat) : (hexDigits digits n).length = digits := by
  induction digits generalizing n with
  | zero => rfl
  | succ k ih => simp [hexDigits, ih]

end Sys2Proof.Machine
end

