-- ==== Sys2Proof/Tests/Slice0.lean ====
section
/-! SUPPORT. Our own tests. Expected values come from spec/95_test_vectors.md and the rules' examples.
First the checks of WellFormed on ill-formed data, then decoding of written-out words, one step per
instruction, FE, the stream and the runs; last, for every obligation with hypotheses, a concrete input
that meets them (`witness_…`). -/

namespace Sys2Proof.Tests

open Sys2Proof.Machine Sys2Proof.Claims

/-! ### Ill-formed data is refused -/

theorem test_config_too_large : Config.wellFormed { maxWords := 2 ^ 30 + 1 } = false := by decide
theorem test_config_not_ascii : Config.wellFormed { unknownText := [Char.ofNat 233] } = false := by decide
theorem test_config_default : Config.wellFormed {} = true := by decide
theorem test_tok_undefined_selector : Tok.wellFormed ⟨11, 0, 0, 0, 0⟩ = false := by decide
theorem test_tok_unused_role : Tok.wellFormed ⟨1, 3, 1, 2, 4⟩ = false := by decide
theorem test_record_kind_never_made : DecRecord.wellFormed ⟨11, 0, 0, 0, 0, 0⟩ = false := by decide
theorem test_record_unused_role : DecRecord.wellFormed ⟨15, 0, 0, 0, 1, 0⟩ = false := by decide

/-! ### Decoding of words written out bit by bit (95_test_vectors.md L2.1) -/

theorem test_decode_halt :
    decode false 0b00000000000_00000_00000_00000_000000 = .ok .halt := by rfl
theorem test_decode_add :
    decode false 0b00000000000_00010_00001_00011_000001 = .ok (.add 3 1 2) := by rfl
theorem test_decode_addi :
    decode false 0b11111111111_11111_00010_00010_000010 = .ok (.addi 2 2 (-1)) := by rfl
theorem test_decode_bne :
    decode false 0b11111111111_00011_01000_00100_000011 = .ok (.bne 3 8 (-28)) := by rfl
theorem test_decode_mul :
    decode false 0b00000000000_00111_00110_00101_000100 = .ok (.mul 5 6 7) := by rfl
theorem test_decode_lui :
    decode false 0b00010010001_10100_00000_00111_000101 = .ok (.lui 7 0x1234) := by rfl
theorem test_decode_lw :
    decode false 0b00000000000_01000_00010_00100_000110 = .ok (.lw 4 8 2) := by rfl
theorem test_decode_sw :
    decode false 0b11111111111_00101_00100_11100_000111 = .ok (.sw 4 (-4) 5) := by rfl
theorem test_decode_blt :
    decode false 0b00000000000_00110_00101_01100_001000 = .ok (.blt 5 6 12) := by rfl
theorem test_decode_slli :
    decode false 0b00000000000_00011_00010_00001_001001 = .ok (.slli 1 2 3) := by rfl
theorem test_decode_sub :
    decode false 0b00000000000_00011_00001_00010_001010 = .ok (.sub 2 1 3) := by rfl

/-- Reserved encodings are refused by name (L2.2). -/
theorem test_decode_refused :
    decode false 0x0000000B = .error (.unassignedOpcode 0x0000000B) ∧
    decode false 0xFFFFFFFF = .error (.unassignedOpcode 0xFFFFFFFF) ∧
    decode false 0x80000000 = .error (.nonzeroHalt 0x80000000) ∧
    decode true 0xFFE208C1 = .error (.reservedBits 0xFFE208C1) ∧
    decode true 0x123429C5 = .error (.reservedBits 0x123429C5) ∧
    decodeBytes .rawLE false [0x42, 0x00, 0x0A] = .error (.truncated 3) :=
  ⟨rfl, rfl, rfl, rfl, rfl, rfl⟩

theorem test_decode_table_word : decodeTableWord 32 0x000208C1 = some (.add 3 1 2) ∧
    decodeTableWord 32 0x0000000B = none := ⟨rfl, rfl⟩

/-- ENC ignores what a selector does not use, and has no arm from 11 on (L2.1). -/
theorem test_enc_ports : enc ⟨0, 31, 31, 31, 0xFFFF⟩ = ⟨0, true⟩ ∧
    enc ⟨5, 1, 9, 0, 5⟩ = ⟨0x00050045, true⟩ ∧ enc ⟨7, 9, 31, 0, 0x7FFF⟩ = ⟨0x7FFF07C7, true⟩ ∧
    enc ⟨3, 0, 1, 2, 0x0020⟩ = ⟨0x00211003, true⟩ ∧ enc ⟨11, 1, 2, 3, 4⟩ = ⟨0, false⟩ := by decide

/-! ### One step of each instruction (L2.3, L2.5): a line to its word, a word to its line -/

/-- An assembly run on its first line. -/
def onLine (text : String) : State := (beginAssembly {} {} text.toList).startLoop

/-- A disassembly run on its first word. -/
def onWord (w : Word) : State :=
  (beginDisassembly {} {} (Memory.ofBytes (wordBytes .rawLE w))).startLoop

/-- The state a step answers. -/
def after (o : Host.Outcome State Fault Refusal) : Option State :=
  match o with
  | .next t => some t
  | _ => none

/-- The words after one step on a line. -/
def emitted (text : String) : Option (List Word) := (after (step (onLine text))).map (·.words)

/-- The listing after one step on a word. -/
def listed (w : Word) : Option (List Text) := (after (step (onWord w))).map (·.listing)

theorem test_step_halt : emitted "halt # stop" = some [0x00000000] ∧
    listed 0x00000000 = some ["00000000: 00000000  halt".toList] := ⟨rfl, rfl⟩
theorem test_step_add : emitted "add x31, x0, x17" = some [0x001107C1] ∧
    listed 0x001107C1 = some ["00000000: 001107C1  add x31, x0, x17".toList] := ⟨rfl, rfl⟩
theorem test_step_addi : emitted "addi x5, x6, -32768" = some [0x80003142] ∧
    listed 0x80003142 = some ["00000000: 80003142  addi x5, x6, -32768".toList] := ⟨rfl, rfl⟩
theorem test_step_bne : emitted "bne x31, x0, 32767" = some [0x7FFF07C3] ∧
    listed 0x7FFF07C3 = some ["00000000: 7FFF07C3  bne x31, x0, 32767".toList] := ⟨rfl, rfl⟩
theorem test_step_mul : emitted "mul x5, x6, x7" = some [0x00073144] ∧
    listed 0x00073144 = some ["00000000: 00073144  mul x5, x6, x7".toList] := ⟨rfl, rfl⟩
theorem test_step_lui : emitted "lui x9, -1" = some [0xFFFF0245] ∧
    listed 0xFFFF0245 = some ["00000000: FFFF0245  lui x9, -1".toList] := ⟨rfl, rfl⟩
theorem test_step_lw : emitted "lw x0, -32768(x31)" = some [0x8000F806] ∧
    listed 0x8000F806 = some ["00000000: 8000F806  lw x0, -32768(x31)".toList] := ⟨rfl, rfl⟩
theorem test_step_sw : emitted "sw x31, 32767(x0)" = some [0x7FE0FFC7] ∧
    listed 0x7FE0FFC7 = some ["00000000: 7FE0FFC7  sw x31, 32767(x0)".toList] := ⟨rfl, rfl⟩
theorem test_step_blt : emitted "blt x05, x33, 12" = some [0x00012B08] ∧
    listed 0x00012B08 = some ["00000000: 00012B08  blt x5, x1, 12".toList] := ⟨rfl, rfl⟩
theorem test_step_slli : emitted "slli x2, x3, 31" = some [0x001F1889] ∧
    listed 0x001F1889 = some ["00000000: 001F1889  slli x2, x3, 31".toList] := ⟨rfl, rfl⟩
theorem test_step_sub : emitted "sub x30, x29, x28" = some [0x001CEF8A] ∧
    listed 0x001CEF8A = some ["00000000: 001CEF8A  sub x30, x29, x28".toList] := ⟨rfl, rfl⟩

/-- An unknown word is listed with its warning (L2.2, R175, R204). -/
theorem test_step_unknown :
    (after (step (onWord 0x0000000B))).map (fun t => (t.listing, t.warnings)) =
      some (["00000000: 0000000B  unknown instruction".toList], [.unknownInstruction 0 0x0000000B]) := by
  decide

/-- A failing line leaves the record alone (program P3's fourth line, R210). -/
theorem test_step_failed : (after (step (onLine "sw x2, 8[x1]"))).map (fun t => (t.status, t.words)) =
    some (.failed (.atLine .malformedMemoryOperand 1 "8[x1]".toList), []) := by decide

/-- The word placed by withFetchWord is the instruction the next step runs. -/
theorem test_fetch : step (State.reset.withFetchWord 32 0x000208C1) =
    exec (.add 3 1 2) (State.reset.withFetchWord 32 0x000208C1) := by rfl

/-! ### FE (L2.3) -/

theorem test_fe_whitespace : frontEnd "  add\tx3 ,x1,x2   # c".toList = .tok ⟨1, 3, 1, 2, 0⟩ ∧
    frontEnd "add x3,x1,x2\r".toList = .tok ⟨1, 3, 1, 2, 0⟩ := ⟨rfl, rfl⟩
theorem test_fe_skip : frontEnd [] = .skip ∧ frontEnd "   ".toList = .skip ∧
    frontEnd "# only a comment".toList = .skip := ⟨rfl, rfl, rfl⟩
theorem test_fe_immediates : frontEnd "addi x1, x0, 0x1FFFF".toList = .tok ⟨2, 1, 0, 0, 0xFFFF⟩ ∧
    frontEnd "lui x7, 0X1f".toList = .tok ⟨5, 7, 0, 0, 0x1F⟩ ∧
    frontEnd "lw x4, -8(x31)".toList = .tok ⟨6, 4, 31, 0, 0xFFF8⟩ := ⟨rfl, rfl, rfl⟩
theorem test_fe_mnemonic : frontEnd "ADD x1, x2, x3".toList = .failed ⟨.unknownMnemonic, "ADD".toList⟩ ∧
    frontEnd "halt x1".toList = .failed ⟨.operandCount, "halt".toList⟩ ∧
    frontEnd "add x1 x2, x3".toList = .failed ⟨.operandCount, "add".toList⟩ ∧
    frontEnd "add x1, x2,".toList = .failed ⟨.malformedOperandList, "x1, x2,".toList⟩ :=
  ⟨rfl, rfl, rfl, rfl⟩
theorem test_fe_operands : frontEnd "add x1, x2, r3".toList = .failed ⟨.invalidRegister, "r3".toList⟩ ∧
    frontEnd "addi x1, x0, --1".toList = .failed ⟨.invalidImmediate, "--1".toList⟩ ∧
    frontEnd "lw x4, 8( x2)".toList = .failed ⟨.invalidRegister, " x2".toList⟩ ∧
    frontEnd "sw x5, 4 (x6)".toList = .failed ⟨.invalidImmediate, "4 ".toList⟩ :=
  ⟨rfl, rfl, rfl, rfl⟩

/-! ### The object stream (L2.4) -/

theorem test_stream_written : objectBytes .rawLE [0x000A0042] = [0x42, 0x00, 0x0A, 0x00] ∧
    objectBytes .legacyBE [0x000A0042] =
      [0x00, 0xC0, 0xFF, 0xEE, 0x00, 0x00, 0x00, 0x01, 0x00, 0x0A, 0x00, 0x42] ∧
    objectBytes .rawLE [] = [] := by decide
theorem test_stream_read : streamWords .rawLE (Memory.ofBytes [0x42, 0x00, 0x0A, 0x00, 0x00]) =
      [0x000A0042] ∧
    checkStream {} (Memory.ofBytes [0, 0, 0]) = .ok [.trailingPartialWord 3] := ⟨by decide, rfl⟩
theorem test_stream_too_large : checkStream { maxWords := 0 } (Memory.ofBytes [0, 0, 0, 0]) =
    .error .streamTooLarge := rfl
theorem test_stream_refused :
    checkStream { objFormat := .legacyBE } (Memory.ofBytes [0x00, 0xC0, 0xFF, 0xEE, 0, 0, 0]) =
      .error (.badHeader 7) ∧
    checkStream { objFormat := .legacyBE } (Memory.ofBytes [0x00, 0xC0, 0xFF, 0xEF, 0, 0, 0, 0]) =
      .error (.badHeader 8) ∧
    checkStream { objFormat := .legacyBE }
        (Memory.ofBytes [0x00, 0xC0, 0xFF, 0xEE, 0, 0, 0, 2, 0x00, 0x0A, 0x00, 0x42]) =
      .error (.countMismatch 2 1) := ⟨rfl, rfl, rfl⟩

/-! ### The listing (R176) -/

theorem test_listing_hex : listingHex .upper8 0xFFE31603 = "FFE31603".toList ∧
    listingHex .upper8 4 = "00000004".toList := ⟨rfl, rfl⟩
theorem test_listing_output : State.output { onWord 0 with status := .done, listing := [['a'], ['b']] } =
    some (.listing ['a', '\n', 'b', '\n'] []) := rfl

/-! ### Witnesses: each obligation's hypotheses, met by a concrete input -/

/-- A program already at its size limit. -/
def fullProgram : State := (beginAssembly { maxWords := 0 } {} "halt".toList).startLoop
/-- A disassembly run under STRICT_DECODE on its first word. -/
def onStrictWord (w : Word) : State :=
  (beginDisassembly { strictDecode := true } {} (Memory.ofBytes (wordBytes .rawLE w))).startLoop
/-- The end of an assembly run of one word, in either format. -/
def lastStep (fmt : ObjFormat) : State :=
  ((beginAssembly { objFormat := fmt } {} "halt".toList).startLoop).emit 0
/-- Runs whose input or output the environment refuses. -/
def noInput : State := beginAssembly {} { inputMissing := true } []
def noOutput : State := ((beginAssembly {} { writeFails := true } []).startLoop).skipLine
def noListing : State := (beginDisassembly {} { writeFails := true } []).startLoop
/-- An ended run. -/
def ended : State := State.reset.finish

theorem witness_AssemblingFormatAEmitsItsWord :
    AtLine (onLine "add x3, x1, x2") "add x3, x1, x2".toList ∧
      (onLine "add x3, x1, x2").words.length ≠ (onLine "add x3, x1, x2").config.maxWords :=
  ⟨⟨rfl, rfl, rfl⟩, by decide⟩
theorem witness_AssemblingFormatBEmitsItsWord :
    AtLine (onLine "lui x9, -1") "lui x9, -1".toList ∧
      (onLine "lui x9, -1").words.length ≠ (onLine "lui x9, -1").config.maxWords :=
  ⟨⟨rfl, rfl, rfl⟩, by decide⟩
theorem witness_AssemblingFormatCEmitsItsWord :
    AtLine (onLine "sw x5, 12(x6)") "sw x5, 12(x6)".toList ∧
      (onLine "sw x5, 12(x6)").words.length ≠ (onLine "sw x5, 12(x6)").config.maxWords :=
  ⟨⟨rfl, rfl, rfl⟩, by decide⟩
theorem witness_AssemblingHaltEmitsTheZeroWord :
    AtLine (onLine "halt") "halt".toList ∧
      (onLine "halt").words.length ≠ (onLine "halt").config.maxWords :=
  ⟨⟨rfl, rfl, rfl⟩, by decide⟩
theorem witness_EveryInstructionFailsAtTheSizeLimit :
    AtLine fullProgram "halt".toList ∧ fullProgram.words.length = fullProgram.config.maxWords :=
  ⟨⟨rfl, rfl, rfl⟩, rfl⟩
theorem witness_ListingFormatAPrintsItsText : AtWord (onWord 0x000208C1) 0x000208C1 := ⟨rfl, rfl, rfl⟩
theorem witness_ListingFormatBPrintsItsText : AtWord (onWord 0xFFFF0245) 0xFFFF0245 := ⟨rfl, rfl, rfl⟩
theorem witness_ListingFormatCPrintsItsText : AtWord (onWord 0x00062B07) 0x00062B07 := ⟨rfl, rfl, rfl⟩
theorem witness_ListingHaltPrintsItsText : AtWord (onWord 0) 0 := ⟨rfl, rfl, rfl⟩
theorem witness_EveryInstructionKeepsTheRest :
    (∃ t, exec .halt (onLine "halt") = .next t ∧ (onLine "halt").mode = .assembly ∧
      t.status = .running) ∧
    ∃ t, exec (.add 3 1 2) (onWord 0x000208C1) = .next t ∧ (onWord 0x000208C1).mode = .disassembly :=
  ⟨⟨_, rfl, rfl, rfl⟩, _, rfl, rfl⟩
theorem witness_InstructionOutsideARunStops :
    ended.status ≠ .running ∧
    (noOutput.status = .running ∧ noOutput.mode = .assembly ∧ noOutput.currentLine = none) ∧
    (noListing.status = .running ∧ noListing.mode = .disassembly ∧ noListing.currentWord = none) :=
  ⟨by decide, ⟨rfl, rfl, rfl⟩, rfl, rfl, rfl⟩
theorem witness_StepRunsTheDecodedInstruction :
    (ReadsWord (onWord 0x000208C1) 0x000208C1 ∧
      decode (onWord 0x000208C1).config.strictDecode 0x000208C1 = .ok (.add 3 1 2)) ∧
    (AtLine (onLine "halt") "halt".toList ∧ (onLine "halt").phase = .working ∧
      frontEnd "halt".toList = .tok ⟨0, 0, 0, 0, 0⟩ ∧ Tok.instr? ⟨0, 0, 0, 0, 0⟩ = some .halt) :=
  ⟨⟨⟨⟨rfl, rfl, rfl⟩, rfl, by decide⟩, rfl⟩, ⟨rfl, rfl, rfl⟩, rfl, rfl, rfl⟩
/-- The clause on single bits at its boundaries, bit 10 and bit 21. -/
theorem witness_FormatASwapMovesOnlyTheSourceFields :
    ((1 : Opcode) = 1 ∨ (1 : Opcode) = 4 ∨ (1 : Opcode) = 10) ∧ (10 < 11 ∨ 20 < 10) ∧
      (21 < 11 ∨ 20 < 21) := by decide
/-- The decimal clause at both ends of its range. -/
theorem witness_FormatCImmediateComesBack :
    ((8 : Opcode) = 3 ∨ (8 : Opcode) = 7 ∨ (8 : Opcode) = 8) ∧
    ((-32768 : Int) ≤ -32768 ∧ (-32768 : Int) ≤ 32767) ∧
    ((-32768 : Int) ≤ 32767 ∧ (32767 : Int) ≤ 32767) := by decide
/-- The clauses at 10, 11 and 63, and a mnemonic FE does not know. -/
theorem witness_UndefinedSelectorIsRefusedAndFatal :
    11 ≤ (Tok.mk 11 0 0 0 0).sel.toNat ∧ 11 ≤ (Tok.mk 63 0 0 0 0).sel.toNat ∧
    AtLine (onLine "halt") "halt".toList ∧ (Tok.mk 10 0 0 0 0).sel.toNat ≤ 10 ∧
    frontEnd "sub x2, x1, x3".toList = .tok ⟨10, 2, 1, 3, 0⟩ ∧
    preprocess "nop".toList ≠ [] ∧ ∀ m : Mnemonic, mnemonicToken (preprocess "nop".toList) ≠ m.text :=
  ⟨by decide, by decide, ⟨rfl, rfl, rfl⟩, by decide, rfl, by decide,
    fun m => by cases m <;> decide⟩
/-- The opcode clause at 11 and at 0, and the run's clause under both values of STRICT_DECODE. -/
theorem witness_UnknownWordsAreListedAndTheRunGoesOn :
    11 ≤ (Word.opcode 11).toNat ∧ (Word.opcode 0x40 = 0 ∧ (0x40 : Word) ≠ 0) ∧
    (ReadsWord (onWord 11) 11 ∧ (dec (onWord 11).config.strictDecode 11).kind = 15) ∧
    (ReadsWord (onStrictWord 0xFFE208C1) 0xFFE208C1 ∧
      (dec (onStrictWord 0xFFE208C1).config.strictDecode 0xFFE208C1).kind = 15) :=
  ⟨by decide, by decide, ⟨⟨⟨rfl, rfl, rfl⟩, rfl, by decide⟩, rfl⟩,
    ⟨⟨rfl, rfl, rfl⟩, rfl, by decide⟩, rfl⟩
theorem witness_StrictDecodeDecidesOnReservedBits :
    (Word.opcode 0xFFE208C1 = 1 ∧ (0xFFE208C1 : Word).extractLsb 31 21 ≠ 0) ∧
    (Word.opcode 0x123429C5 = 5 ∧ (0x123429C5 : Word).extractLsb 15 11 ≠ 0) ∧
    Word.clearReserved 0x000208C1 = 0x000208C1 := by decide
theorem witness_RecordsAreWellFormed : frontEnd "lw x4, 8(x2)".toList = .tok ⟨6, 4, 2, 0, 8⟩ := rfl
theorem witness_EncodeThenDecodeRestoresTheLine :
    frontEnd "addi x1, x0, +10".toList = .tok ⟨2, 1, 0, 0, 10⟩ := rfl
theorem witness_DecodeThenEncodeRestoresTheWord :
    (dec true 0x000208C1).kind ≠ 15 ∧ (dec false 0xFFE208C1).kind ≠ 15 := by decide
theorem witness_CanonicalProgramAssemblesToItsWords :
    [Instr.halt, .add 1 2 3].length ≤ Config.maxWords {} ∧ ([] : List Instr).length ≤ Config.maxWords {} := by
  decide
/-- A numeral, and a token that is no REG operand. -/
theorem witness_RegisterOperandGrammar :
    IsDecimal "31".toList 31 ∧ ¬∃ t n, ['r', '5'] = 'x' :: t ∧ IsDecimal t n :=
  ⟨⟨[3, 1], by decide, by decide, by decide, by decide⟩, fun ⟨_, _, h, _⟩ => by cases h⟩
/-- A decimal, a hex, a signed operand, and a token that is no IMM operand. -/
theorem witness_ImmediateOperandGrammar :
    IsImmediate "31".toList 31 ∧ IsImmediate "0x1f".toList 31 ∧ IsImmediate "-31".toList (-31) ∧
      ¬∃ v, IsImmediate [] v := by
  have d : IsDecimal "31".toList 31 := ⟨[3, 1], by decide, by decide, by decide, by decide⟩
  refine ⟨⟨_, 31, .inl d, .inl ⟨rfl, .inl rfl⟩⟩,
    ⟨_, 31, .inr ⟨"1f".toList, .inl rfl, [1, 15], by decide, by decide, ?_, by decide⟩, .inl ⟨rfl, .inl rfl⟩⟩,
    ⟨_, 31, .inl d, .inr ⟨rfl, rfl⟩⟩, ?_⟩
  · exact .cons (.inl rfl) (.cons (.inl rfl) .nil)
  · rintro ⟨v, m, n, hm, ⟨-, rfl | h⟩ | ⟨-, h⟩⟩
    · rcases hm with ⟨ds, hne, -, h, -⟩ | ⟨h, hx | hx, -⟩
      · exact hne (by simpa using h.symm)
      · cases hx
      · cases hx
    · cases h
    · cases h
/-- A token of the right shape for each of the three outcomes, and one of another shape. -/
theorem witness_MemoryOperandGrammar :
    (IsMemShape "q(x2)".toList "q".toList "x2".toList ∧
      readImm "q".toList = .error ⟨.invalidImmediate, "q".toList⟩) ∧
    (IsMemShape "8(y2)".toList "8".toList "y2".toList ∧ readImm "8".toList = .ok 8 ∧
      readReg "y2".toList = .error ⟨.invalidRegister, "y2".toList⟩) ∧
    (IsMemShape "8(x2)".toList "8".toList "x2".toList ∧ readReg "x2".toList = .ok 2) ∧
    ¬∃ imm reg, IsMemShape [] imm reg := by
  refine ⟨⟨by unfold IsMemShape; decide, rfl⟩, ⟨by unfold IsMemShape; decide, rfl, rfl⟩,
    ⟨by unfold IsMemShape; decide, rfl⟩, ?_⟩
  rintro ⟨imm, reg, -, -, -, -, -, -, h⟩
  simp at h
/-- One line for every clause. -/
theorem witness_FirstFailureOfALineIsReported :
    (preprocess "nop".toList ≠ [] ∧ mnemonic? (mnemonicToken (preprocess "nop".toList)) = none) ∧
    (let t := preprocess "add x1,, x2".toList
     t ≠ [] ∧ mnemonic? (mnemonicToken t) = some .add ∧ [] ∈ operandTokens (operandText t)) ∧
    (let t := preprocess "add x1, x2".toList
     mnemonic? (mnemonicToken t) = some .add ∧ [] ∉ operandTokens (operandText t) ∧
       (operandTokens (operandText t)).length ≠ (operandKinds .add).length) ∧
    (let t := preprocess "add x1, y2, z3".toList
     mnemonic? (mnemonicToken t) = some .add ∧ [] ∉ operandTokens (operandText t) ∧
       (operandTokens (operandText t)).length = (operandKinds .add).length ∧
       ((operandKinds .add).zip (operandTokens (operandText t))).findSome?
         (fun p => operandError? p.1 p.2) = some ⟨.invalidRegister, "y2".toList⟩) ∧
    (let t := preprocess "add x1, x2, x3".toList
     mnemonic? (mnemonicToken t) = some .add ∧ [] ∉ operandTokens (operandText t) ∧
       (operandTokens (operandText t)).length = (operandKinds .add).length ∧
       ((operandKinds .add).zip (operandTokens (operandText t))).findSome?
         (fun p => operandError? p.1 p.2) = none) := by decide
theorem witness_DecimalRenderingIsCanonical : 0 < 1 ∧ [0].head? = some 0 := by decide
theorem witness_RawStreamLayout :
    (lastStep .rawLE).status = .running ∧ (lastStep .rawLE).phase = .working ∧
    (lastStep .rawLE).mode = .assembly ∧ (lastStep .rawLE).currentLine = none ∧
    (lastStep .rawLE).env.writeFails = false ∧ (lastStep .rawLE).config.objFormat = .rawLE ∧
    (lastStep .rawLE).words[0]? = some 0 := ⟨rfl, rfl, rfl, rfl, rfl, rfl, rfl⟩
theorem witness_LegacyStreamLayout :
    (lastStep .legacyBE).status = .running ∧ (lastStep .legacyBE).phase = .working ∧
    (lastStep .legacyBE).mode = .assembly ∧ (lastStep .legacyBE).currentLine = none ∧
    (lastStep .legacyBE).env.writeFails = false ∧ (lastStep .legacyBE).config.objFormat = .legacyBE ∧
    (lastStep .legacyBE).words[0]? = some 0 := ⟨rfl, rfl, rfl, rfl, rfl, rfl, rfl⟩
theorem witness_WrittenStreamReadsBack :
    Config.wellFormed {} = true ∧ [(0 : Word)].length ≤ Config.maxWords {} := by decide
/-- Five bytes: one whole word and one byte over. -/
theorem witness_RawStreamRead :
    Config.objFormat {} = .rawLE ∧ ([0x42, 0, 0x0A, 0, 0] : List Byte).length / 4 ≤ Config.maxWords {} ∧
    ([0x42, 0, 0x0A, 0, 0] : List Byte)[4 * 0]? = some 0x42 ∧
    ([0x42, 0, 0x0A, 0, 0] : List Byte)[4 * 0 + 3]? = some 0 := by decide
/-- Each clause: 7 bytes; 8 bytes with a wrong magic; a wrong count; the right count. -/
theorem witness_LegacyStreamRead :
    Config.objFormat { objFormat := .legacyBE } = .legacyBE ∧
    ([0x00, 0xC0, 0xFF, 0xEE, 0, 0, 0] : List Byte).length < 8 ∧
    ([0x00, 0xC0, 0xFF, 0xEF, 0, 0, 0, 0] : List Byte).take 4 ≠ [0x00, 0xC0, 0xFF, 0xEE] ∧
    ((0 : Byte) ++ (0 : Byte) ++ (0 : Byte) ++ (2 : Byte) : Word).toNat ≠ [(0 : Byte), 0x0A, 0, 0x42].length / 4 ∧
    ((0 : Byte) ++ (0 : Byte) ++ (0 : Byte) ++ (1 : Byte) : Word).toNat = [(0 : Byte), 0x0A, 0, 0x42].length / 4 ∧
    [(0 : Byte), 0x0A, 0, 0x42].length / 4 ≤ Config.maxWords {} ∧
    [(0 : Byte), 0x0A, 0, 0x42][4 * 0 + 3]? = some 0x42 := by decide
/-- One word more than MAX_WORDS, in both formats. -/
theorem witness_TooLargeStreamFails :
    Config.objFormat { maxWords := 0 } = .rawLE ∧
    Config.maxWords { maxWords := 0 } < ([0x42, 0, 0x0A, 0] : List Byte).length / 4 ∧
    Config.objFormat { objFormat := .legacyBE, maxWords := 0 } = .legacyBE ∧
    ((0 : Byte) ++ (0 : Byte) ++ (0 : Byte) ++ (1 : Byte) : Word).toNat = [(0 : Byte), 0x0A, 0, 0x42].length / 4 ∧
    Config.maxWords { objFormat := .legacyBE, maxWords := 0 } < [(0 : Byte), 0x0A, 0, 0x42].length / 4 := by
  decide
/-- A word to list, and a run of one word that is DONE. -/
theorem witness_ListingHasItsFormat :
    ReadsWord (onWord 0) 0 ∧ Config.wellFormed {} = true ∧
    ∃ t text warnings, run 3 (beginDisassembly {} {} (Memory.ofBytes [0, 0, 0, 0])) = .next t ∧
      t.output = some (.listing text warnings) :=
  ⟨⟨⟨rfl, rfl, rfl⟩, rfl, by decide⟩, by decide, _, _, _, rfl, rfl⟩
/-- The empty program ends DONE in two steps. -/
theorem witness_EachWordDependsOnItsLineAlone :
    ∃ t, run 3 (beginAssembly {} {} []) = .next t ∧ t.status = .done := ⟨_, rfl, rfl⟩
theorem witness_DisassemblyRunIsDisassemble : Memory.wf (Memory.ofBytes [1, 2, 3]) = true := by decide
theorem witness_ListingAddressIsFourTimesTheIndex :
    ReadsWord (onWord 0) 0 ∧ (onWord 0).index < 2 ^ 30 := ⟨⟨⟨rfl, rfl, rfl⟩, rfl, by decide⟩, by decide⟩
theorem witness_SyntaxConditionsAreFatal :
    AtLine (onLine "nop") "nop".toList ∧ (onLine "nop").phase = .working ∧
      frontEnd "nop".toList = .failed ⟨.unknownMnemonic, "nop".toList⟩ := ⟨⟨rfl, rfl, rfl⟩, rfl, rfl⟩
theorem witness_FatalConditionDiscardsAndStops :
    (onLine "nop").status = .running ∧ ∃ t, step (onLine "nop") = .next t ∧
      t.status = .failed (.atLine .unknownMnemonic 1 "nop".toList) := ⟨rfl, _, rfl, rfl⟩
/-- Each of the three places. -/
theorem witness_EnvironmentFailureEndsTheRun :
    (noInput.status = .running ∧ noInput.phase = .opening ∧ noInput.env.inputMissing = true) ∧
    (noOutput.status = .running ∧ noOutput.phase = .working ∧ noOutput.mode = .assembly ∧
      noOutput.currentLine = none ∧ noOutput.env.writeFails = true) ∧
    (noListing.status = .running ∧ noListing.phase = .working ∧ noListing.mode = .disassembly ∧
      noListing.wordCount ≤ noListing.index ∧ noListing.env.writeFails = true) :=
  ⟨⟨rfl, rfl, rfl⟩, ⟨rfl, rfl, rfl, rfl, rfl⟩, rfl, rfl, rfl, by decide, rfl⟩
theorem witness_EndedRunStays : ended.status ≠ .running := by decide
/-- The invariant holds of a concrete state. -/
theorem inv_reset : State.reset.Inv where
  config_wf := by decide
  stream_wf := rfl
  line_pos := by decide
  line_le := by decide
  words_le := by decide
  opening_empty _ := ⟨rfl, rfl, rfl, rfl⟩
  failed_empty _ _ := ⟨rfl, rfl, rfl⟩
  listing_length _ _ := rfl
  index_le _ := by decide
  listing_ascii _ h := by cases h
  assembly_lists_nothing _ := ⟨rfl, rfl, rfl⟩
  disassembly_emits_nothing _ := ⟨rfl, rfl⟩
theorem witness_EveryStepKeepsTheInvariant : State.reset.Inv ∧ ∃ t, step State.reset = .next t :=
  ⟨inv_reset, _, rfl⟩
theorem witness_InvariantHoldsAtTheStart :
    Config.wellFormed {} = true ∧ Memory.wf (Memory.ofBytes [1, 2, 3]) = true := by decide
theorem witness_GoodStatesStepOn : State.reset.Inv := inv_reset
theorem witness_EveryRunEnds : State.reset.Inv := inv_reset
theorem witness_EveryStepKeepsTheInputs :
    (∃ t, step (onWord 0) = .next t ∧ (onWord 0).mode = .disassembly) ∧
    ∃ t, step (onLine "halt") = .next t ∧ (onLine "halt").mode = .assembly ∧ t.status ≠ .done :=
  ⟨⟨_, rfl, rfl⟩, _, rfl, rfl, by decide⟩

end Sys2Proof.Tests
end

/-! PROOFS. The object byte stream of a run: what the last step of an assembly run writes, and what the
first step of a disassembly run reads (spec/20_memory.md R42 to R45). -/

namespace Sys2Proof.Machine

/-! ### The word area of a stream of any bytes (R44, R45) -/

section wordArea
variable {fmt : ObjFormat} {header : List Byte} (hh : header.length = wordBase fmt) (body : List Byte)
include hh

theorem wholeWords_ofBytes_append :
    wholeWords fmt (Memory.ofBytes (header ++ body)) = body.length / 4 := by
  simp [wholeWords, hh]

theorem partialWarnings_ofBytes_append :
    partialWarnings fmt (Memory.ofBytes (header ++ body)) =
      if body.length % 4 = 0 then [] else [.trailingPartialWord (body.length % 4)] := by
  simp [partialWarnings, partialBytes, hh]

theorem readByte_ofBytes_append (k j : Nat) :
    Memory.readByte (Memory.ofBytes (header ++ body)) (wordOffset fmt k + j) = body[4 * k + j]? := by
  rw [Memory.readByte_ofBytes, wordOffset, ← hh, Nat.add_assoc,
    List.getElem?_append_right (Nat.le_add_right ..), Nat.add_sub_cancel_left]

/-- Four bytes of the word area at a multiple of 4 are one of its whole words. -/
theorem readWord_ofBytes_append {body : List Byte} {k : Nat} {b0 b1 b2 b3 : Byte}
    (h0 : body[4 * k]? = some b0) (h1 : body[4 * k + 1]? = some b1)
    (h2 : body[4 * k + 2]? = some b2) (h3 : body[4 * k + 3]? = some b3) :
    k < wholeWords fmt (Memory.ofBytes (header ++ body)) ∧
      readWord fmt (Memory.ofBytes (header ++ body)) k = some (wordOfBytes fmt b0 b1 b2 b3) := by
  have hread := readByte_ofBytes_append hh body k
  constructor
  · obtain ⟨hlt, -⟩ := List.getElem?_eq_some_iff.mp h3
    rw [wholeWords_ofBytes_append hh]
    omega
  · exact readWord_eq_some ((hread 0).trans h0) ((hread 1).trans h1) ((hread 2).trans h2)
      ((hread 3).trans h3)

end wordArea

/-! ### The bytes of a written stream (R42, R43) -/

theorem len_ofBytes_objectBytes (fmt : ObjFormat) (ws : List Word) :
    Memory.len (Memory.ofBytes (objectBytes fmt ws)) = wordBase fmt + 4 * ws.length := by
  rw [Memory.len_ofBytes, objectBytes, List.length_append, length_objectHeader, length_flatMap_wordBytes]

theorem readByte_objectBytes_header (fmt : ObjFormat) (ws : List Word) {a : Nat} (ha : a < wordBase fmt) :
    Memory.readByte (Memory.ofBytes (objectBytes fmt ws)) a = (objectHeader fmt ws.length)[a]? := by
  rw [Memory.readByte_ofBytes]
  exact List.getElem?_append_left (by rwa [length_objectHeader])

theorem readByte_objectBytes_word (fmt : ObjFormat) {ws : List Word} {k j : Nat} {w : Word}
    (h : ws[k]? = some w) (hj : j < 4) :
    Memory.readByte (Memory.ofBytes (objectBytes fmt ws)) (wordOffset fmt k + j) =
      (wordBytes fmt w)[j]? := by
  rw [objectBytes, readByte_ofBytes_append (length_objectHeader ..), getElem?_flatMap_wordBytes fmt h hj]

/-- The step after the last line of an assembly run writes the object and is DONE (R173, R178). -/
theorem step_writesObject {s : State} {fmt : ObjFormat} (hs : s.status = .running)
    (hp : s.phase = .working) (hm : s.mode = .assembly) (hl : s.currentLine = none)
    (hw : s.env.writeFails = false) (hf : s.config.objFormat = fmt) :
    ∃ t, step s = .next t ∧ t.status = .done ∧ t.stream = Memory.ofBytes (objectBytes fmt s.words) := by
  refine ⟨s.writeObject.finish, ?_, rfl, by simp [hf]⟩
  rw [step_assembly hs hp hm, assembleStep, hl]
  simp [endAssembly, hw]

/-! ### The header of LEGACY_BE (R45) -/

theorem headerGood_ofBytes (bs : List Byte) :
    headerGood (Memory.ofBytes bs) = true ↔ 8 ≤ bs.length ∧ bs.take 4 = legacyMagic := by
  simp [headerGood]

theorem headerCount_ofBytes (m0 m1 m2 m3 c0 c1 c2 c3 : Byte) (body : List Byte) :
    headerCount (Memory.ofBytes ([m0, m1, m2, m3, c0, c1, c2, c3] ++ body)) =
      (c0 ++ c1 ++ c2 ++ c3 : Word).toNat := by
  simp [headerCount, wordOfBytes]

/-! ### The checks of a read, one outcome at a time (R44, R45, R174) -/

section checks
variable {cfg : Config} {m : Memory}

theorem checkStream_badHeader (hf : cfg.objFormat = .legacyBE) (hg : ¬headerGood m = true) :
    checkStream cfg m = .error (.badHeader m.len) := by
  simp [checkStream, hf, hg]

theorem checkStream_countMismatch (hf : cfg.objFormat = .legacyBE) (hg : headerGood m = true)
    (hc : headerCount m ≠ wholeWords cfg.objFormat m) :
    checkStream cfg m = .error (.countMismatch (headerCount m) (wholeWords cfg.objFormat m)) := by
  rw [hf] at hc ⊢
  simp [checkStream, hf, hg, hc]

theorem checkStream_ok
    (hgood : cfg.objFormat = .rawLE ∨
      headerGood m = true ∧ headerCount m = wholeWords cfg.objFormat m)
    (hsize : wholeWords cfg.objFormat m ≤ cfg.maxWords) :
    checkStream cfg m = .ok (partialWarnings cfg.objFormat m) := by
  obtain ⟨hf, hg, -⟩ | ⟨hf, -, hc, -⟩ | ⟨-, ⟨hlarge, -⟩ | ⟨-, hok⟩⟩ := checkStream_cases cfg m
  · simp [hf, hg] at hgood
  · obtain ⟨-, hgc⟩ := hgood.resolve_left (by simp [hf])
    exact absurd hgc hc
  · exact absurd hlarge (Nat.not_lt.mpr hsize)
  · exact hok

/-- The first step of a disassembly run whose stream passes the checks. -/
theorem step_beginDisassembly_ok {ws : List Warning} (h : checkStream cfg m = .ok ws) :
    step (beginDisassembly cfg {} m) = .next ((beginDisassembly cfg {} m).warn ws).startLoop := by
  rw [step_opening rfl rfl]
  simp [openRun, h]

/-- The first step of a disassembly run whose stream fails a check: R210 with that record. -/
theorem step_beginDisassembly_error {f : Failure} (h : checkStream cfg m = .error f) :
    step (beginDisassembly cfg {} m) = .next ((beginDisassembly cfg {} m).failRun f) := by
  rw [step_opening rfl rfl]
  simp [openRun, h]

/-- A stream that passes the checks is read: the run goes on with the whole words of what stands after
its header, and with the warning of a partial word (R44, R45). -/
theorem step_beginDisassembly_goesOn {fmt : ObjFormat} {header body : List Byte}
    (hf : cfg.objFormat = fmt) (hh : header.length = wordBase fmt)
    (hm : m = Memory.ofBytes (header ++ body))
    (hgood : fmt = .rawLE ∨ headerGood m = true ∧ headerCount m = body.length / 4)
    (hsize : body.length / 4 ≤ cfg.maxWords) :
    ∃ t, step (beginDisassembly cfg {} m) = .next t ∧ t.status = .running ∧
      t.wordCount = body.length / 4 ∧
      t.warnings = (if body.length % 4 = 0 then [] else [.trailingPartialWord (body.length % 4)]) ∧
      ∀ (k : Nat) (b0 b1 b2 b3 : Byte), body[4 * k]? = some b0 → body[4 * k + 1]? = some b1 →
        body[4 * k + 2]? = some b2 → body[4 * k + 3]? = some b3 →
        k < t.wordCount ∧ readWord cfg.objFormat t.stream k = some (wordOfBytes fmt b0 b1 b2 b3) := by
  subst hf hm
  have hn := wholeWords_ofBytes_append hh body
  have hok := checkStream_ok (by rwa [hn]) (hn.trans_le hsize)
  exact ⟨_, step_beginDisassembly_ok hok, rfl, hn, partialWarnings_ofBytes_append hh body,
    fun k b0 b1 b2 b3 => readWord_ofBytes_append hh⟩

end checks

/-! ### The obligations -/

/-- Settles O31: the last step writes `objectBytes .rawLE`, whose word area is the whole stream. -/
theorem rawStreamLayout : Obligations.RawStreamLayout := by
  intro s hs hp hm hl hw hf
  obtain ⟨t, hstep, hdone, hstream⟩ := step_writesObject hs hp hm hl hw hf
  refine ⟨t, hstep, hdone, ?_, fun k w hk => ?_⟩
  · rw [hstream, len_ofBytes_objectBytes]
    exact Nat.zero_add _
  · have hbyte (j : Nat) (hj : j < 4) :
        Memory.readByte t.stream (4 * k + j) = (wordBytes .rawLE w)[j]? := by
      simpa [hstream, wordOffset, wordBase] using readByte_objectBytes_word .rawLE hk hj
    exact ⟨hbyte 0 (by decide), hbyte 1 (by decide), hbyte 2 (by decide), hbyte 3 (by decide)⟩

/-- Settles O32: the last step writes `objectBytes .legacyBE`, whose word area starts at offset 8. -/
theorem legacyStreamLayout : Obligations.LegacyStreamLayout := by
  intro s hs hp hm hl hw hf
  obtain ⟨t, hstep, hdone, hstream⟩ := step_writesObject hs hp hm hl hw hf
  refine ⟨t, hstep, hdone, ?_, ?_, fun k w hk => ?_⟩
  · rw [hstream, len_ofBytes_objectBytes]
    rfl
  · have hheader : ∀ a ∈ List.range 8,
        Memory.readByte t.stream a = (objectHeader .legacyBE s.words.length)[a]? := fun a ha => by
      rw [hstream]
      exact readByte_objectBytes_header .legacyBE s.words (List.mem_range.mp ha)
    exact List.map_congr_left hheader
  · have hbyte (j : Nat) (hj : j < 4) :
        Memory.readByte t.stream (8 + 4 * k + j) = (wordBytes .legacyBE w)[j]? := by
      rw [hstream]
      exact readByte_objectBytes_word .legacyBE hk hj
    exact ⟨hbyte 0 (by decide), hbyte 1 (by decide), hbyte 2 (by decide), hbyte 3 (by decide)⟩

/-- Settles O34: RAW_LE has no header, so the word area is all of the bytes and only the size is checked. -/
theorem rawStreamRead : Obligations.RawStreamRead := by
  intro cfg bs hf hsize
  exact step_beginDisassembly_goesOn (header := []) hf rfl rfl (.inl rfl) hsize

/-- Settles O35: the outcomes of R45 in the order of its checks. -/
theorem legacyStreamRead : Obligations.LegacyStreamRead := by
  intro cfg bs hf
  refine ⟨fun hbad => ?_, ?_⟩
  · have hg : ¬headerGood (Memory.ofBytes bs) = true := fun h => by
      obtain ⟨hlen, hmagic⟩ := (headerGood_ofBytes bs).mp h
      exact hbad.elim (Nat.not_lt.mpr hlen) (absurd hmagic)
    have hcheck := checkStream_badHeader hf hg
    rw [Memory.len_ofBytes] at hcheck
    exact step_beginDisassembly_error hcheck
  · rintro c0 c1 c2 c3 body rfl
    have hg := (headerGood_ofBytes ([0x00, 0xC0, 0xFF, 0xEE, c0, c1, c2, c3] ++ body)).mpr
      ⟨by simp, rfl⟩
    have hc := headerCount_ofBytes 0x00 0xC0 0xFF 0xEE c0 c1 c2 c3 body
    refine ⟨fun hne => ?_, fun heq hsize => ?_⟩
    · have hn := wholeWords_ofBytes_append (fmt := cfg.objFormat)
        (header := [0x00, 0xC0, 0xFF, 0xEE, c0, c1, c2, c3]) (by rw [hf]; rfl) body
      have hcheck := checkStream_countMismatch hf hg (by rwa [hc, hn])
      rw [hc, hn] at hcheck
      exact step_beginDisassembly_error hcheck
    · exact step_beginDisassembly_goesOn (header := [0x00, 0xC0, 0xFF, 0xEE, c0, c1, c2, c3]) hf rfl rfl
        (.inr ⟨hg, hc.trans heq⟩) hsize

end Sys2Proof.Machine

/-! PROOFS. The encoding family: DEC undoes ENC and ENC undoes DEC up to the bits DEC drops (R61 to R72),
FE undoes TXT (R75 to R85), and so the two round trips (R86, R87); the listing of an unknown word (R175); the
operand grammars (R78 to R80) and the decimal rendering (R84). -/

namespace Sys2Proof

/-! ### The bits the lenient decoder drops (R71) -/

section clearReserved
variable {w mask : Word} {start len : Nat}

theorem extract_and_of_ones (h : mask.extractLsb' start len = BitVec.allOnes len) :
    (w &&& mask).extractLsb' start len = w.extractLsb' start len := by
  rw [BitVec.extractLsb'_and, h, BitVec.and_allOnes]

theorem extract_and_of_zero (h : mask.extractLsb' start len = 0) :
    (w &&& mask).extractLsb' start len = 0 := by
  rw [BitVec.extractLsb'_and, h]
  exact BitVec.and_zero

/-- Clearing the reserved field of format A is packing the other fields again (R63). -/
theorem and_maskA_eq_packA (w : Word) :
    w &&& 0x001FFFFF = packA w.opcode w.field20_16 w.field15_11 w.field10_6 := by
  have h := word_eq_packA (w &&& 0x001FFFFF) (extract_and_of_zero rfl)
  rw [← h]
  congr 1 <;> exact extract_and_of_ones rfl

/-- Clearing the fixed field of lui is packing the other fields with 0 there (R126). -/
theorem and_maskLui_eq_packB (w : Word) :
    w &&& 0xFFFF07FF = packB w.opcode w.immB 0 w.field10_6 := by
  have h := word_eq_packB (w &&& 0xFFFF07FF)
  rw [← h]
  congr 1
  · exact extract_and_of_ones rfl
  · exact extract_and_of_ones rfl
  · exact extract_and_of_zero rfl
  · exact extract_and_of_ones rfl

end clearReserved

/-! ### Packing the fields of a word again, format by format -/

section repack
variable {strict : Bool} {w : Word} {op : Opcode}

theorem repackA (hop : w.opcode = op) (hA : op = 1 ∨ op = 4 ∨ op = 10)
    (hr : ¬(strict = true ∧ w.field31_21 ≠ 0)) :
    packA op w.field20_16 w.field15_11 w.field10_6 = if strict then w else w.clearReserved := by
  subst hop
  cases strict with
  | true => exact word_eq_packA w (by simpa using hr)
  | false =>
    rw [← and_maskA_eq_packA]
    obtain h | h | h := hA <;> simp [Word.clearReserved, h]

theorem repackLui (hop : w.opcode = 5) (hr : ¬(strict = true ∧ w.field15_11 ≠ 0)) :
    packB 5 w.immB 0 w.field10_6 = if strict then w else w.clearReserved := by
  cases strict with
  | true =>
    have h0 : w.field15_11 = 0 := by simpa using hr
    simpa [hop, h0] using word_eq_packB w
  | false =>
    rw [← hop, ← and_maskLui_eq_packB]
    simp [Word.clearReserved, hop]

/-- The other mnemonics use every bit: nothing is dropped. -/
theorem ite_clearReserved (h : w.opcode.toNat ∉ [1, 4, 5, 10]) :
    (if strict then w else w.clearReserved) = w := by
  have hc : w.clearReserved = w := by
    unfold Word.clearReserved
    split
    case h_5 => rfl
    all_goals
      rename_i hop
      exact absurd (by simp [hop]) h
  rw [hc, ite_self]

theorem repackB (hop : w.opcode = op) (hu : op.toNat ∉ [1, 4, 5, 10]) :
    packB op w.immB w.field15_11 w.field10_6 = if strict then w else w.clearReserved := by
  subst hop
  rw [ite_clearReserved hu, word_eq_packB]

theorem repackC (hop : w.opcode = op) (hu : op.toNat ∉ [1, 4, 5, 10]) :
    packC op w.field20_16 w.field15_11 w.immC = if strict then w else w.clearReserved := by
  subst hop
  rw [ite_clearReserved hu, word_eq_packC]

end repack

/-! ### DEC after ENC, ENC after DEC -/

theorem decode_encode (strict : Bool) (i : Instr) : decode strict (encode i) = .ok i := by
  cases i with
  | halt => rfl
  | add rd rs1 rs2 => simp [decode, encode, encAdd, decAdd]
  | addi rd rs1 imm => simp [decode, encode, encAddi, decAddi]
  | bne rs1 rs2 imm => simp [decode, encode, encBne, decBne]
  | mul rd rs1 rs2 => simp [decode, encode, encMul, decMul]
  | lui rd imm => simp [decode, encode, encLui, decLui]
  | lw rd imm rs1 => simp [decode, encode, encLw, decLw]
  | sw rs2 imm rs1 => simp [decode, encode, encSw, decSw]
  | blt rs1 rs2 imm => simp [decode, encode, encBlt, decBlt]
  | slli rd rs1 imm => simp [decode, encode, encSlli, decSlli]
  | sub rd rs1 rs2 => simp [decode, encode, encSub, decSub]

/-- What DEC accepts is the word of the instruction it gives, but for the bits it drops (R71, R87). -/
theorem encode_of_decode {strict : Bool} {w : Word} {i : Instr} (h : decode strict w = .ok i) :
    encode i = if strict then w else w.clearReserved := by
  unfold decode at h
  split at h <;> rename_i hop
  case h_1 =>
    rw [decHalt] at h
    split_ifs at h with h0
    cases h; subst h0
    cases strict <;> rfl
  case h_2 | h_5 | h_11 =>
    simp only [decAdd, decMul, decSub] at h
    split_ifs at h with hr
    cases h
    exact repackA (BitVec.eq_of_toNat_eq hop) (by decide) hr
  case h_3 | h_7 | h_10 => cases h; exact repackB (BitVec.eq_of_toNat_eq hop) (by decide)
  case h_4 | h_8 | h_9 => cases h; exact repackC (BitVec.eq_of_toNat_eq hop) (by decide)
  case h_6 =>
    rw [decLui] at h
    split_ifs at h with hr
    cases h
    exact repackLui (BitVec.eq_of_toNat_eq hop) hr
  case h_12 => cases h

/-! ### The decoded record (R27, R162) -/

section dec
variable {strict : Bool} {w : Word}

theorem dec_of_ok {i : Instr} (h : decode strict w = .ok i) : dec strict w = i.record w := by
  rw [dec, h]

theorem dec_of_error {e : DecodeError} (h : decode strict w = .error e) :
    dec strict w = recUnknown w := by
  rw [dec, h]

@[simp] theorem dec_encode (strict : Bool) (i : Instr) :
    dec strict (encode i) = i.record (encode i) :=
  dec_of_ok (decode_encode strict i)

theorem Instr.record_kind (i : Instr) (w : Word) :
    (i.record w).kind.toNat = i.mnemonic.opcode.toNat := by
  cases i <;> rfl

theorem Instr.record_kind_ne (i : Instr) (w : Word) : (i.record w).kind ≠ 15 := fun h => by
  have hk := i.record_kind w
  have hle := i.mnemonic.opcode_le
  rw [← hk, h] at hle
  exact absurd hle (by decide)

/-- A word is unknown exactly when it decodes to no instruction (R162). -/
theorem dec_kind_eq_iff : (dec strict w).kind = 15 ↔ ∃ e, decode strict w = .error e := by
  cases h : decode strict w with
  | ok i => simpa [dec_of_ok h] using i.record_kind_ne w
  | error e => simp [dec_of_error h, recUnknown]

/-- The words that are unknown under either STRICT_DECODE (R72, R163). -/
theorem decode_unassigned (h : 11 ≤ w.opcode.toNat ∨ w.opcode = 0 ∧ w ≠ 0) :
    ∃ e, decode strict w = .error e := by
  obtain h | ⟨h0, hw⟩ := h
  · unfold decode
    split
    case h_12 => exact ⟨_, rfl⟩
    all_goals omega
  · exact ⟨_, by rw [decode, h0]; exact if_neg hw⟩

end dec

end Sys2Proof

namespace Sys2Proof.Machine

open Sys2Proof.Claims

/-! ### TXT and FE on instructions (R81, R83, R85) -/

/-- TXT prints the canonical text of the instruction DEC finds, whatever the word and UNKNOWN_TEXT. -/
theorem txt_record (unknown : Text) (i : Instr) (w : Word) : txt unknown (i.record w) = i.text := by
  cases i <;> rfl

/-! The operands TXT prints, read and bound again. -/

section operands
variable (sel : Opcode) (a b c : RegIndex) (imm : Imm)

theorem tokRegRegReg_text :
    tokRegRegReg sel (regText a) (regText b) (regText c) = .tok ⟨sel, a, b, c, 0⟩ := by
  simp [tokRegRegReg, readRegRegReg]

theorem tokRegRegImm_text :
    tokRegRegImm sel (regText a) (regText b) (immText imm) = .tok ⟨sel, a, b, 0, imm⟩ := by
  simp [tokRegRegImm, readRegRegImm]

theorem tokBranch_text :
    tokBranch sel (regText a) (regText b) (immText imm) = .tok ⟨sel, 0, a, b, imm⟩ := by
  simp [tokBranch, readRegRegImm]

theorem tokRegImm_text : tokRegImm sel (regText a) (immText imm) = .tok ⟨sel, a, 0, 0, imm⟩ := by
  simp [tokRegImm, readRegImm]

theorem tokLoad_text : tokLoad sel (regText a) (memText imm b) = .tok ⟨sel, a, b, 0, imm⟩ := by
  simp [tokLoad, readRegMem]

theorem tokStore_text : tokStore sel (regText a) (memText imm b) = .tok ⟨sel, 0, b, a, imm⟩ := by
  simp [tokStore, readRegMem]

end operands

/-- FE reads the canonical text of an instruction as its token record. -/
theorem frontEnd_text (i : Instr) : frontEnd i.text = .tok i.tok := by
  have hr := plainText_regText
  have hi := plainText_immText
  have hm := plainText_memText
  cases i with
  | halt => rfl
  | add rd rs1 rs2 =>
    exact (frontEnd_lineText .add (by simp) (by simp [hr]) rfl).trans (tokRegRegReg_text ..)
  | addi rd rs1 imm =>
    exact (frontEnd_lineText .addi (by simp) (by simp [hr, hi]) rfl).trans (tokRegRegImm_text ..)
  | bne rs1 rs2 imm =>
    exact (frontEnd_lineText .bne (by simp) (by simp [hr, hi]) rfl).trans (tokBranch_text ..)
  | mul rd rs1 rs2 =>
    exact (frontEnd_lineText .mul (by simp) (by simp [hr]) rfl).trans (tokRegRegReg_text ..)
  | lui rd imm =>
    exact (frontEnd_lineText .lui (by simp) (by simp [hr, hi]) rfl).trans (tokRegImm_text ..)
  | lw rd imm rs1 =>
    exact (frontEnd_lineText .lw (by simp) (by simp [hr, hm]) rfl).trans (tokLoad_text ..)
  | sw rs2 imm rs1 =>
    exact (frontEnd_lineText .sw (by simp) (by simp [hr, hm]) rfl).trans (tokStore_text ..)
  | blt rs1 rs2 imm =>
    exact (frontEnd_lineText .blt (by simp) (by simp [hr, hi]) rfl).trans (tokBranch_text ..)
  | slli rd rs1 imm =>
    exact (frontEnd_lineText .slli (by simp) (by simp [hr, hi]) rfl).trans (tokRegRegImm_text ..)
  | sub rd rs1 rs2 =>
    exact (frontEnd_lineText .sub (by simp) (by simp [hr]) rfl).trans (tokRegRegReg_text ..)

/-! ### What FE accepts is an instruction (R77, R81) -/

section inversion
variable {sel : Opcode} {a b c : Text} {t : Tok}

theorem tokRegRegReg_eq_tok (h : tokRegRegReg sel a b c = .tok t) :
    ∃ rd rs1 rs2, t = ⟨sel, rd, rs1, rs2, 0⟩ := by
  unfold tokRegRegReg at h
  split at h <;> cases h
  exact ⟨_, _, _, rfl⟩

theorem tokRegRegImm_eq_tok (h : tokRegRegImm sel a b c = .tok t) :
    ∃ rd rs1 imm, t = ⟨sel, rd, rs1, 0, imm⟩ := by
  unfold tokRegRegImm at h
  split at h <;> cases h
  exact ⟨_, _, _, rfl⟩

theorem tokBranch_eq_tok (h : tokBranch sel a b c = .tok t) :
    ∃ rs1 rs2 imm, t = ⟨sel, 0, rs1, rs2, imm⟩ := by
  unfold tokBranch at h
  split at h <;> cases h
  exact ⟨_, _, _, rfl⟩

theorem tokRegImm_eq_tok (h : tokRegImm sel a b = .tok t) : ∃ rd imm, t = ⟨sel, rd, 0, 0, imm⟩ := by
  unfold tokRegImm at h
  split at h <;> cases h
  exact ⟨_, _, rfl⟩

theorem tokLoad_eq_tok (h : tokLoad sel a b = .tok t) :
    ∃ rd imm rs1, t = ⟨sel, rd, rs1, 0, imm⟩ := by
  unfold tokLoad at h
  split at h <;> cases h
  exact ⟨_, _, _, rfl⟩

theorem tokStore_eq_tok (h : tokStore sel a b = .tok t) :
    ∃ rs2 imm rs1, t = ⟨sel, 0, rs1, rs2, imm⟩ := by
  unfold tokStore at h
  split at h <;> cases h
  exact ⟨_, _, _, rfl⟩

/-- Operands that FE binds make the token record of an instruction. -/
theorem bindOperands_eq_tok {m : Mnemonic} {ops : List Text} (h : bindOperands m ops = .tok t) :
    ∃ i : Instr, t = i.tok := by
  unfold bindOperands at h
  split at h
  · cases h; exact ⟨.halt, rfl⟩
  · obtain ⟨rd, rs1, rs2, rfl⟩ := tokRegRegReg_eq_tok h; exact ⟨.add rd rs1 rs2, rfl⟩
  · obtain ⟨rd, rs1, imm, rfl⟩ := tokRegRegImm_eq_tok h; exact ⟨.addi rd rs1 imm, rfl⟩
  · obtain ⟨rs1, rs2, imm, rfl⟩ := tokBranch_eq_tok h; exact ⟨.bne rs1 rs2 imm, rfl⟩
  · obtain ⟨rd, rs1, rs2, rfl⟩ := tokRegRegReg_eq_tok h; exact ⟨.mul rd rs1 rs2, rfl⟩
  · obtain ⟨rd, imm, rfl⟩ := tokRegImm_eq_tok h; exact ⟨.lui rd imm, rfl⟩
  · obtain ⟨rd, imm, rs1, rfl⟩ := tokLoad_eq_tok h; exact ⟨.lw rd imm rs1, rfl⟩
  · obtain ⟨rs2, imm, rs1, rfl⟩ := tokStore_eq_tok h; exact ⟨.sw rs2 imm rs1, rfl⟩
  · obtain ⟨rs1, rs2, imm, rfl⟩ := tokBranch_eq_tok h; exact ⟨.blt rs1 rs2 imm, rfl⟩
  · obtain ⟨rd, rs1, imm, rfl⟩ := tokRegRegImm_eq_tok h; exact ⟨.slli rd rs1 imm, rfl⟩
  · obtain ⟨rd, rs1, rs2, rfl⟩ := tokRegRegReg_eq_tok h; exact ⟨.sub rd rs1 rs2, rfl⟩
  · cases h

/-- FE answers a token record only when it has bound operands to it (R82). -/
theorem frontEnd_eq_tok {line : Text} (h : frontEnd line = .tok t) : ∃ i : Instr, t = i.tok := by
  rw [frontEnd, frontEndStripped] at h
  split_ifs at h
  split at h
  · cases h
  · dsimp only at h
    split_ifs at h
    exact bindOperands_eq_tok h

end inversion

/-! ### The round trips -/

/-- Settles O22: what FE accepts is an instruction, DEC gives back the instruction of an encoded word, and
FE reads back the text TXT prints of it. -/
theorem encodeThenDecodeRestoresTheLine : Obligations.EncodeThenDecodeRestoresTheLine := by
  have hlist (unknown : Text) (strict : Bool) (i : Instr) :
      txt unknown (dec strict (enc i.tok).word) = i.text := by
    rw [enc_tok, dec_encode, txt_record]
  refine ⟨fun unknown line t h => ?_,
    fun unknown strict i => ⟨frontEnd_text i, hlist unknown strict i⟩⟩
  obtain ⟨i, rfl⟩ := frontEnd_eq_tok h
  exact ⟨i, rfl, fun strict => hlist unknown strict i, frontEnd_text i⟩

/-- Settles O23: a word that is not unknown decodes to an instruction, whose text FE reads back and whose
word is the word again but for the bits the lenient decoder drops. -/
theorem decodeThenEncodeRestoresTheWord : Obligations.DecodeThenEncodeRestoresTheWord := by
  intro unknown strict w hk
  cases hd : decode strict w with
  | error e => exact absurd (dec_kind_eq_iff.2 ⟨e, hd⟩) hk
  | ok i =>
    refine ⟨i.tok, ?_, ?_⟩
    · rw [dec_of_ok hd, txt_record, frontEnd_text]
    · rw [enc_tok, encode_of_decode hd]

/-! ### Unknown words (R162, R175) -/

theorem txt_recUnknown (unknown : Text) (w : Word) : txt unknown (recUnknown w) = unknown := rfl

/-- A disassembly run lists a word that is no instruction as the unknown record (R175). -/
theorem step_of_decode_error {s : State} {w : Word} {e : DecodeError} (hw : ReadsWord s w)
    (h : decode s.config.strictDecode w = .error e) : step s = .next (s.listRecord (recUnknown w)) := by
  rw [step_disassembly hw.status hw.phase hw.mode, disassembleStep, if_pos hw.whole]
  simp only [hw.current, h, disassembleWord]

theorem listRecord_recUnknown (s : State) (w : Word) :
    s.listRecord (recUnknown w) = afterList
      { s with warnings := s.warnings ++ [.unknownInstruction s.index w] } w s.config.unknownText := rfl

/-- Settles O19: the words of R72 and R163 decode to no instruction, and the step of a run on any word
that is no instruction lists its unknown record. -/
theorem unknownWordsAreListedAndTheRunGoesOn : Obligations.UnknownWordsAreListedAndTheRunGoesOn := by
  have hunknown (w : Word) (strict : Bool) (h : 11 ≤ w.opcode.toNat ∨ w.opcode = 0 ∧ w ≠ 0) :
      dec strict w = recUnknown w := by
    obtain ⟨e, he⟩ := decode_unassigned h
    exact dec_of_error he
  refine ⟨hunknown, fun s w hw hk => ?_, fun w hmem => ?_⟩
  · obtain ⟨e, he⟩ := dec_kind_eq_iff.1 hk
    rw [step_of_decode_error hw he, listRecord_recUnknown]
  · have hex : ∀ w ∈ ([0x0000000B, 0xFFFFFFFF, 0x00000040, 0x80000000] : List Word),
        11 ≤ w.opcode.toNat ∨ w.opcode = 0 ∧ w ≠ 0 := by simp [Word.opcode]
    rw [hunknown w false (hex w hmem), txt_recUnknown]
    rfl

/-! ### REG operands (R78) -/

/-- The numerals that FE reads are those of the grammar. -/
theorem decNumeral?_eq_some_iff {t : Text} {n : Nat} : decNumeral? t = some n ↔ IsDecimal t n :=
  decNumeral?_eq_some

theorem hexNumeral?_eq_some_iff {t : Text} {n : Nat} : hexNumeral? t = some n ↔ IsHex t n :=
  hexNumeral?_eq_some

theorem regNumeral?_eq_some_iff {token : Text} {n : Nat} :
    regNumeral? token = some n ↔ ∃ t, token = 'x' :: t ∧ IsDecimal t n := by
  unfold regNumeral?
  split
  · simp [decNumeral?_eq_some_iff]
  · rename_i hx
    simp only [reduceCtorEq, false_iff]
    rintro ⟨t, rfl, -⟩
    exact hx t rfl

theorem readReg_of_some {token : Text} {n : Nat} (h : regNumeral? token = some n) :
    readReg token = .ok (BitVec.ofNat 5 n) := by
  rw [readReg, h]

theorem readReg_of_none {token : Text} (h : regNumeral? token = none) :
    readReg token = .error ⟨.invalidRegister, token⟩ := by
  rw [readReg, h]

/-- Settles O25: `regNumeral?` is the grammar of R78, and its value is cut to 5 bits. -/
theorem registerOperandGrammar : Obligations.RegisterOperandGrammar := by
  refine ⟨fun t n h => ⟨?_, BitVec.toNat_ofNat n 5⟩, fun token h => ?_, by rfl, by decide⟩
  · exact readReg_of_some (regNumeral?_eq_some_iff.2 ⟨t, rfl, h⟩)
  · refine readReg_of_none (Option.eq_none_iff_forall_ne_some.2 fun n hn => h ?_)
    obtain ⟨t, ht, hd⟩ := regNumeral?_eq_some_iff.1 hn
    exact ⟨t, n, ht, hd⟩

/-! ### IMM operands (R79) -/

/-- A decimal numeral holds decimal digits alone. -/
theorem mem_isDecimal {t : Text} {n : Nat} (h : IsDecimal t n) {c : Char} (hc : c ∈ t) :
    ∃ d < 10, c = Nat.digitChar d := by
  obtain ⟨ds, -, hlt, rfl, -⟩ := h
  obtain ⟨d, hd, rfl⟩ := List.mem_map.1 hc
  exact ⟨d, hlt d hd, rfl⟩

/-- The characters that ask for a sign or for base 16 are no decimal digits. -/
theorem not_mem_isDecimal {t : Text} {n : Nat} (h : IsDecimal t n) {c : Char}
    (hc : c ∈ ['x', 'X', '+', '-']) : c ∉ t := fun hmem => by
  obtain ⟨d, hd, rfl⟩ := mem_isDecimal h hmem
  revert hc
  interval_cases d <;> decide

theorem isMagnitude_hex {p h : Text} {n : Nat} (hp : p = ['0', 'x'] ∨ p = ['0', 'X']) :
    IsMagnitude (p ++ h) n ↔ IsHex h n := by
  constructor
  · rintro (hd | ⟨u, hu, hx⟩)
    · obtain rfl | rfl := hp
      · exact absurd (by simp) (not_mem_isDecimal hd (c := 'x') (by simp))
      · exact absurd (by simp) (not_mem_isDecimal hd (c := 'X') (by simp))
    · obtain rfl : h = u := by
        obtain rfl | rfl := hp <;> simpa using hu
      exact hx
  · intro hx
    obtain rfl | rfl := hp
    · exact .inr ⟨h, .inl rfl, hx⟩
    · exact .inr ⟨h, .inr rfl, hx⟩

/-- The magnitudes that FE reads are those of the grammar. -/
theorem magnitude?_eq_some_iff {t : Text} {n : Nat} : magnitude? t = some n ↔ IsMagnitude t n := by
  unfold magnitude?
  split
  · exact hexNumeral?_eq_some_iff.trans (isMagnitude_hex (.inl rfl)).symm
  · exact hexNumeral?_eq_some_iff.trans (isMagnitude_hex (.inr rfl)).symm
  · rename_i hx hX
    rw [decNumeral?_eq_some_iff, IsMagnitude, or_iff_left]
    rintro ⟨h, rfl | rfl, -⟩
    · exact hx h rfl
    · exact hX h rfl

/-- A magnitude has no sign. -/
theorem ne_sign_of_isMagnitude {t : Text} {n : Nat} (h : IsMagnitude t n) (u : Text) :
    t ≠ '+' :: u ∧ t ≠ '-' :: u := by
  obtain hd | ⟨h, rfl | rfl, -⟩ := h
  · constructor <;> rintro rfl
    · exact not_mem_isDecimal hd (c := '+') (by simp) (by simp)
    · exact not_mem_isDecimal hd (c := '-') (by simp) (by simp)
  · simp
  · simp

/-- The tokens that FE reads as an immediate are those of the grammar, with its value. -/
theorem immValue?_eq_some_iff {t : Text} {v : Int} : immValue? t = some v ↔ IsImmediate t v := by
  unfold immValue? IsImmediate
  constructor
  · intro h
    split at h <;> obtain ⟨n, hn, rfl⟩ := Option.map_eq_some_iff.1 h <;>
      rw [magnitude?_eq_some_iff] at hn
    · exact ⟨_, n, hn, .inl ⟨rfl, .inr rfl⟩⟩
    · exact ⟨_, n, hn, .inr ⟨rfl, rfl⟩⟩
    · exact ⟨_, n, hn, .inl ⟨rfl, .inl rfl⟩⟩
  · rintro ⟨m, n, hm, ⟨rfl, rfl | rfl⟩ | ⟨rfl, rfl⟩⟩
    · split
      · exact absurd rfl (ne_sign_of_isMagnitude hm _).1
      · exact absurd rfl (ne_sign_of_isMagnitude hm _).2
      · simp [magnitude?_eq_some_iff.2 hm]
    · simp [magnitude?_eq_some_iff.2 hm]
    · simp [magnitude?_eq_some_iff.2 hm]

theorem readImm_of_some {token : Text} {v : Int} (h : immValue? token = some v) :
    readImm token = .ok (BitVec.ofInt 16 v) := by
  rw [readImm, h]

theorem readImm_of_none {token : Text} (h : immValue? token = none) :
    readImm token = .error ⟨.invalidImmediate, token⟩ := by
  rw [readImm, h]

/-- Settles O26: `immValue?` is the grammar of R79, and its value is cut to 16 bits. -/
theorem immediateOperandGrammar : Obligations.ImmediateOperandGrammar := by
  refine ⟨fun t v h => ⟨readImm_of_some (immValue?_eq_some_iff.2 h), ?_⟩, fun token h => ?_,
    by rfl, by decide⟩
  · rw [BitVec.toNat_ofInt]
    omega
  · exact readImm_of_none (Option.eq_none_iff_forall_ne_some.2 fun v hv =>
      h ⟨v, immValue?_eq_some_iff.1 hv⟩)

/-! ### MEM operands (R80) -/

theorem memShape_iff_isMemShape {token : Text} :
    memShape token = true ↔ ∃ imm reg, IsMemShape token imm reg :=
  memShape_iff

theorem readMem_of_isMemShape {token imm reg : Text} (h : IsMemShape token imm reg) :
    readMem token = match readImm imm with
      | .error e => .error e
      | .ok v =>
        match readReg reg with
        | .error e => .error e
        | .ok r => .ok (v, r) := by
  obtain ⟨hi, hr, hi1, hi2, hr1, hr2, rfl⟩ := h
  exact readMem_parts hi hr hi1 hi2 hr1 hr2

/-- Settles O27: a token of the shape is read part by part, and no other token passes the shape test. -/
theorem memoryOperandGrammar : Obligations.MemoryOperandGrammar := by
  refine ⟨fun token imm reg h => ⟨fun e he => ?_, fun v e hv he => ?_, fun v r hv hr => ?_⟩,
    fun token h => ?_, by rfl, by decide, by rfl⟩
  · rw [readMem_of_isMemShape h, he]
  · rw [readMem_of_isMemShape h, hv, he]
  · rw [readMem_of_isMemShape h, hv, hr]
  · rw [readMem, if_neg (memShape_iff_isMemShape.not.2 h)]

/-! ### The decimal rendering (R84) -/

/-- The digits TXT prints of `n`, most significant first. -/
def decimalDigits (n : Nat) : List Nat := if n = 0 then [0] else (Nat.digits 10 n).reverse

theorem decInt_natCast (n : Nat) : decInt n = (decimalDigits n).map Nat.digitChar := decNat_eq n

theorem decimalDigits_of_ne_zero {n : Nat} (h : n ≠ 0) : decimalDigits n = (Nat.digits 10 n).reverse :=
  if_neg h

theorem decimalDigits_ne_nil (n : Nat) : decimalDigits n ≠ [] := by
  rcases eq_or_ne n 0 with rfl | h
  · simp [decimalDigits]
  · simpa [decimalDigits_of_ne_zero h] using Nat.digits_ne_nil_iff_ne_zero.2 h

theorem decimalDigits_lt {n d : Nat} (hd : d ∈ decimalDigits n) : d < 10 := by
  rcases eq_or_ne n 0 with rfl | h
  · simp_all [decimalDigits]
  · rw [decimalDigits_of_ne_zero h, List.mem_reverse] at hd
    exact Nat.digits_lt_base (by decide) hd

theorem ofDigits_decimalDigits (n : Nat) : Nat.ofDigits 10 (decimalDigits n).reverse = n := by
  rcases eq_or_ne n 0 with rfl | h
  · rfl
  · rw [decimalDigits_of_ne_zero h, List.reverse_reverse, Nat.ofDigits_digits]

/-- The first digit of a number other than 0 is not 0. -/
theorem head?_decimalDigits_ne_zero {n : Nat} (h : n ≠ 0) : (decimalDigits n).head? ≠ some 0 := by
  rw [decimalDigits_of_ne_zero h, List.head?_reverse, List.getLast?_eq_getLast_of_ne_nil
    (Nat.digits_ne_nil_iff_ne_zero.2 h)]
  simpa using Nat.getLast_digit_ne_zero 10 h

/-- Settles O30: the digits of a natural number, and the sign of a negative one. -/
theorem decimalRenderingIsCanonical : Obligations.DecimalRenderingIsCanonical := by
  refine ⟨fun n => ⟨decimalDigits n, decimalDigits_ne_nil n, fun d => decimalDigits_lt, decInt_natCast n,
    (ofDigits_decimalDigits n).symm, fun h0 => ?_⟩, fun n hn => ?_, by rfl, by rfl, by rfl⟩
  · obtain rfl : n = 0 := by_contra fun h => head?_decimalDigits_ne_zero h h0
    exact ⟨rfl, rfl⟩
  · obtain ⟨k, rfl⟩ := Nat.exists_eq_succ_of_ne_zero hn.ne'
    rfl

end Sys2Proof.Machine

/-! PROOFS. The format A family: the word ENC packs for add, mul and sub, bit by bit, and the format A law
(spec/40_format_a.md R106). -/

namespace Sys2Proof

section formatA
variable {sel : Opcode} {k : Nat} (op : Opcode) (rs2 rs1 rd : RegIndex)

/-- The format A selectors share one packer (R63). -/
theorem enc_word_eq_packA (h : sel = 1 ∨ sel = 4 ∨ sel = 10) (imm : Imm) :
    (enc ⟨sel, rd, rs1, rs2, imm⟩).word = packA sel rs2 rs1 rd := by
  obtain rfl | rfl | rfl := h <;> rfl

/-- Format A bit by bit (R63). -/
theorem getLsbD_packA : (packA op rs2 rs1 rd).getLsbD k =
    if k < 6 then op.getLsbD k
    else if k < 11 then rd.getLsbD (k - 6)
    else if k < 16 then rs1.getLsbD (k - 11)
    else if k < 21 then rs2.getLsbD (k - 16)
    else false := by
  simp only [packA, BitVec.getLsbD_append]
  simp only [Nat.sub_sub, Nat.reduceAdd, BitVec.ofNat_eq_ofNat, BitVec.getLsbD_zero]
  refine if_ctx_congr .rfl (fun _ => rfl) fun hop => ?_
  refine if_ctx_congr (by omega) (fun _ => rfl) fun hrd => ?_
  refine if_ctx_congr (by omega) (fun _ => rfl) fun hrs1 => ?_
  exact if_ctx_congr (by omega) (fun _ => rfl) fun _ => rfl

/-- A bit outside 20:11 does not depend on the source registers. -/
theorem getLsbD_packA_congr (rs2' rs1' : RegIndex) (h : k < 11 ∨ 20 < k) :
    (packA op rs2 rs1 rd).getLsbD k = (packA op rs2' rs1' rd).getLsbD k := by
  obtain hlow | hhigh := h
  · simp only [getLsbD_packA, hlow, if_true]
  · have habove : ¬k < 11 ∧ ¬k < 16 ∧ ¬k < 21 := by omega
    simp only [getLsbD_packA, habove, if_false]

end formatA

/-- Settles O16: the word is `packA`, whose fields 20:16 and 15:11 are rs2 and rs1 and whose other bits
do not depend on them. -/
theorem formatASwapMovesOnlyTheSourceFields : Obligations.FormatASwapMovesOnlyTheSourceFields := by
  refine ⟨fun sel hsel rd a b imm => ?_, by decide, by decide⟩
  rw [enc_word_eq_packA b a rd hsel, enc_word_eq_packA a b rd hsel]
  refine ⟨fun k hk => getLsbD_packA_congr _ _ _ _ _ _ hk, ?_, ?_⟩
  · exact (packA_20_16 sel b a rd).trans (packA_15_11 sel a b rd).symm
  · exact (packA_15_11 sel b a rd).trans (packA_20_16 sel a b rd).symm

end Sys2Proof

/-! PROOFS. The format C family: the immediate ENC splits for bne, sw and blt is the one DEC gives, and a
signed 16-bit offset goes through FE and TXT unchanged (R147, R79, R84). -/

namespace Sys2Proof

/-- The two pieces of a format C immediate are put back together whatever the registers are: each
selector's word is that of an instruction, and DEC gives the instruction back (R147). -/
theorem dec_enc_imm_formatC {sel : Opcode} (hsel : sel = 3 ∨ sel = 7 ∨ sel = 8) (strict : Bool)
    (rd rs1 rs2 : RegIndex) (imm : Imm) :
    (dec strict (enc ⟨sel, rd, rs1, rs2, imm⟩).word).imm = imm := by
  obtain rfl | rfl | rfl := hsel
  case inl => exact congrArg DecRecord.imm (dec_encode strict (.bne rs1 rs2 imm))
  case inr.inl => exact congrArg DecRecord.imm (dec_encode strict (.sw rs2 imm rs1))
  case inr.inr => exact congrArg DecRecord.imm (dec_encode strict (.blt rs1 rs2 imm))

end Sys2Proof

namespace Sys2Proof.Machine

section signedOffset
variable {v : Int}

/-- An offset in the signed 16-bit range is the value of its 16 bits. -/
theorem toInt_ofInt_imm (hlo : -32768 ≤ v) (hhi : v ≤ 32767) : (BitVec.ofInt 16 v : Imm).toInt = v :=
  BitVec.toInt_ofInt_eq_self (by decide) hlo (by omega)

/-- TXT prints the bits of such an offset as its decimal numeral (R84). -/
theorem immText_ofInt (hlo : -32768 ≤ v) (hhi : v ≤ 32767) :
    immText (BitVec.ofInt 16 v) = decInt v := by
  rw [immText, toInt_ofInt_imm hlo hhi]

end signedOffset

/-- Settles O17: the pieces come back by `decode_encode`, and an offset in range is the value of the 16
bits that FE reads and TXT prints. -/
theorem formatCImmediateComesBack : Obligations.FormatCImmediateComesBack := by
  refine ⟨fun sel hsel strict rd rs1 rs2 => ?_, by decide, by decide, by decide, by decide⟩
  have himm := dec_enc_imm_formatC hsel strict rd rs1 rs2
  refine ⟨himm, fun v hlo hhi => ⟨BitVec.ofInt 16 v, ?_, toInt_ofInt_imm hlo hhi, ?_⟩⟩
  · exact readImm_of_some (immValue?_decInt v)
  · rw [himm, immText_ofInt hlo hhi]

end Sys2Proof.Machine

/-! PROOFS. The family of undefined selectors and reserved bits: ENC has an arm for the selectors 0 to 10 alone
and SEQ ends the run on any other (R164); the two decoders differ on the words with reserved bits alone (R165). -/

namespace Sys2Proof

/-! ### The two decoders (R71, R165) -/

section strictness
variable {w : Word} {i : Instr}

/-- The lenient decoder reads every word of the mnemonics that have reserved or fixed bits (R165). -/
theorem exists_decode_lenient (h : w.opcode.toNat ∈ [1, 4, 5, 10]) :
    ∃ i : Instr, decode false w = .ok i ∧ i.mnemonic.opcode.toNat = w.opcode.toNat := by
  simp only [List.mem_cons, List.not_mem_nil, or_false] at h
  obtain hop | hop | hop | hop := h
  · exact ⟨.add w.field10_6 w.field15_11 w.field20_16, by rw [decode, hop]; rfl, hop.symm⟩
  · exact ⟨.mul w.field10_6 w.field15_11 w.field20_16, by rw [decode, hop]; rfl, hop.symm⟩
  · exact ⟨.lui w.field10_6 w.immB, by rw [decode, hop]; rfl, hop.symm⟩
  · exact ⟨.sub w.field10_6 w.field15_11 w.field20_16, by rw [decode, hop]; rfl, hop.symm⟩

theorem dec_lenient_kind (h : w.opcode.toNat ∈ [1, 4, 5, 10]) :
    (dec false w).kind.toNat = w.opcode.toNat := by
  obtain ⟨i, hi, hop⟩ := exists_decode_lenient h
  rw [dec_of_ok hi, Instr.record_kind, hop]

theorem decode_strict_reservedA (hA : w.opcode = 1 ∨ w.opcode = 4 ∨ w.opcode = 10)
    (hr : w.field31_21 ≠ 0) : decode true w = .error (.reservedBits w) := by
  obtain hop | hop | hop := hA <;> (rw [decode, hop]; exact if_pos ⟨rfl, hr⟩)

theorem decode_strict_reservedLui (hop : w.opcode = 5) (hr : w.field15_11 ≠ 0) :
    decode true w = .error (.reservedBits w) := by
  rw [decode, hop]; exact if_pos ⟨rfl, hr⟩

/-- What the strict decoder accepts is the word of its instruction, so the lenient one reads it too. -/
theorem decode_lenient_of_strict (h : decode true w = .ok i) : decode false w = .ok i := by
  have hw : encode i = w := encode_of_decode h
  rw [← hw, decode_encode]

/-- Either decoder reads the instruction of a word in the word without its reserved bits, which is the
one ENC packs for it. -/
theorem decode_clearReserved (strict : Bool) (h : decode false w = .ok i) :
    decode strict w.clearReserved = .ok i := by
  have hw : encode i = w.clearReserved := encode_of_decode h
  rw [← hw, decode_encode]

/-- A word that the lenient decoder refuses has no reserved bits. -/
theorem clearReserved_of_decode_error {e : DecodeError} (h : decode false w = .error e) :
    w.clearReserved = w := by
  refine ite_clearReserved (strict := false) fun hop => ?_
  obtain ⟨i, hi, -⟩ := exists_decode_lenient hop
  rw [hi] at h
  cases h

/-- The raw word is all that a record keeps of the word besides its instruction (R27). -/
theorem Instr.record_setRaw (i : Instr) (w w' : Word) : { i.record w' with raw := w } = i.record w := by
  cases i <;> rfl

theorem dec_lenient_clearReserved (w : Word) : { dec false w.clearReserved with raw := w } = dec false w := by
  cases h : decode false w with
  | ok i => rw [dec_of_ok (decode_clearReserved false h), dec_of_ok h, Instr.record_setRaw]
  | error e => rw [clearReserved_of_decode_error h, dec_of_error h]; rfl

theorem dec_strict_eq_lenient (hw : w.clearReserved = w) : dec true w = dec false w := by
  cases hl : decode false w with
  | ok i =>
    have hs : decode true w = .ok i := by simpa only [hw] using decode_clearReserved true hl
    rw [dec_of_ok hs, dec_of_ok hl]
  | error e =>
    cases hs : decode true w with
    | ok i => rw [decode_lenient_of_strict hs] at hl; cases hl
    | error e' => rw [dec_of_error hs, dec_of_error hl]

end strictness

end Sys2Proof

namespace Sys2Proof.Machine

open Sys2Proof.Claims

/-- Settles O20: the strict decoder refuses reserved bits, the lenient one reads the word without them, and
a word without them is the word that ENC packs, which both read alike. -/
theorem strictDecodeDecidesOnReservedBits : Obligations.StrictDecodeDecidesOnReservedBits := by
  refine ⟨fun w hA hr => ⟨dec_of_error (decode_strict_reservedA hA hr), dec_lenient_kind ?_⟩,
    fun w hop hr => ⟨dec_of_error (decode_strict_reservedLui hop hr), ?_⟩,
    dec_lenient_clearReserved, fun w => dec_strict_eq_lenient, by decide, by decide, by decide, by decide⟩
  · obtain hop | hop | hop := hA <;> simp [hop]
  · rw [dec_lenient_kind (by simp [hop]), hop]; rfl

/-! ### Selectors without an arm (R164) -/

section selectors
variable {t : Tok}

/-- A token record selects no instruction exactly when its selector is 11 to 63. -/
theorem instr?_eq_none_iff : t.instr? = none ↔ 11 ≤ t.sel.toNat := by
  unfold Tok.instr?
  split
  case h_12 => exact iff_of_true rfl (by grind)
  all_goals exact iff_of_false (by simp) (by omega)

theorem enc_undefined (h : 11 ≤ t.sel.toNat) : enc t = ⟨0, false⟩ :=
  enc_of_instr?_none (instr?_eq_none_iff.2 h)

theorem enc_defined_ok (h : t.sel.toNat ≤ 10) : (enc t).ok = true := by
  cases hi : t.instr? with
  | none => exact absurd (instr?_eq_none_iff.1 hi) (by omega)
  | some i => rw [enc_of_instr? hi]

theorem tok_sel_le (i : Instr) : i.tok.sel.toNat ≤ 10 := by
  have hsel : i.tok.sel = i.mnemonic.opcode := by cases i <;> rfl
  rw [hsel]
  exact i.mnemonic.opcode_le

/-- SEQ ends the run on a token record that ENC refuses (R164, R170). -/
theorem assembleTok_of_refused {s : State} {line : Text} (hl : s.currentLine = some line)
    (hok : (enc t).ok = false) :
    assembleTok t s = .next (s.failLine .unrecognizedSelector line) := by
  simp only [assembleTok, hl, hok, if_true]

theorem failLine_eq_failedWith (s : State) (c : LineCondition) (token : Text) :
    s.failLine c token = failedWith s (.atLine c s.lineNo token) := rfl

end selectors

/-! ### Mnemonics FE does not know (R77, R82) -/

theorem mnemonic?_eq_none {token : Text} (h : ∀ m : Mnemonic, token ≠ m.text) : mnemonic? token = none := by
  cases hm : mnemonic? token with
  | none => rfl
  | some m => exact absurd (text_of_mnemonic? hm) (h m)

theorem frontEnd_of_mnemonic?_none {line : Text} (hne : preprocess line ≠ [])
    (h : mnemonic? (mnemonicToken (preprocess line)) = none) :
    frontEnd line = .failed ⟨.unknownMnemonic, mnemonicToken (preprocess line)⟩ := by
  rw [frontEnd, frontEndStripped, if_neg hne, h]

/-- Settles O18: the selectors from 11 on select no instruction, so ENC refuses them and SEQ ends the run;
FE answers the token record of an instruction or a condition. -/
theorem undefinedSelectorIsRefusedAndFatal : Obligations.UndefinedSelectorIsRefusedAndFatal := by
  refine ⟨fun t ht => ⟨enc_undefined ht, fun s line hs => ?_⟩, fun t => enc_defined_ok, fun line t h => ?_,
    fun line hne hm => frontEnd_of_mnemonic?_none hne (mnemonic?_eq_none hm)⟩
  · have hok : (enc t).ok = false := by rw [enc_undefined ht]
    rw [assembleTok_of_refused hs.current hok, failLine_eq_failedWith]
  · obtain ⟨i, rfl⟩ := frontEnd_eq_tok h
    exact ⟨tok_sel_le i, enc_defined_ok (tok_sel_le i)⟩

end Sys2Proof.Machine

/-! PROOFS. The program family: what one step of either run can do, the words of an assembly run line by line
(R172), and the format and the addresses of the listing (R176, R177). -/

namespace Sys2Proof

/-- DEC keeps the word it was given (R27). -/
@[simp] theorem dec_raw (strict : Bool) (w : Word) : (dec strict w).raw = w := by
  cases h : decode strict w with
  | ok i => rw [dec_of_ok h]; cases i <;> rfl
  | error e => rw [dec_of_error h]; rfl

end Sys2Proof

namespace Sys2Proof.Machine

open Sys2Proof.Claims

/-! ### A decoded word is listed -/

section listRecord
variable (s : State) (r : DecRecord)

@[simp] theorem State.listRecord_config : (s.listRecord r).config = s.config := rfl
@[simp] theorem State.listRecord_mode : (s.listRecord r).mode = s.mode := rfl
@[simp] theorem State.listRecord_index : (s.listRecord r).index = s.index + 1 := rfl
@[simp] theorem State.listRecord_listing : (s.listRecord r).listing = s.listing ++
    [listingLine s.config.listingHex (listingAddress s.index) r.raw (txt s.config.unknownText r)] := rfl

end listRecord

/-! ### What one step of a run can do -/

section steps
variable {s s' : State}

theorem endAssembly_cases (s : State) :
    endAssembly s = s.failRun .io ∨ endAssembly s = s.writeObject.finish := by
  unfold endAssembly
  split_ifs
  · exact .inl rfl
  · exact .inr rfl

theorem endDisassembly_cases (s : State) :
    endDisassembly s = s.failRun .io ∨ endDisassembly s = s.finish := by
  unfold endDisassembly
  split_ifs
  · exact .inl rfl
  · exact .inr rfl

/-- A step of an assembly run stays at its end, fails, opens the input, writes the object after the last
line, passes over a line without a word, or emits ENC's word of the line's token record (R170). -/
theorem step_assembly_cases (hm : s.mode = .assembly) (h : step s = .next s') :
    (s.status ≠ .running ∧ s' = s) ∨ (∃ f, s' = s.failRun f) ∨
    s.status = .running ∧
      (s' = s.startLoop ∨ (s.currentLine = none ∧ s' = s.writeObject.finish) ∨
        ∃ line, s.currentLine = some line ∧
          (frontEnd line = .skip ∧ s' = s.skipLine ∨
            ∃ t, frontEnd line = .tok t ∧ s' = s.emit (enc t).word)) := by
  obtain hend | ⟨hs, ⟨-, rfl⟩ | ⟨-, ⟨-, h⟩ | ⟨hm', -⟩⟩⟩ := step_cases h
  · exact .inl hend
  · obtain ⟨-, ho⟩ | ⟨-, ⟨-, ho⟩ | ⟨hm', -⟩⟩ := openRun_cases s
    · exact .inr (.inl ⟨_, ho⟩)
    · exact .inr (.inr ⟨hs, .inl ho⟩)
    · cases hm.symm.trans hm'
  · obtain ⟨hl, rfl⟩ | ⟨line, hl, ⟨hf, rfl⟩ | ⟨e, -, rfl⟩ | ⟨t, i, hf, hi, hx⟩ | ⟨t, -, -, rfl⟩⟩ :=
      assembleStep_cases h
    · exact (endAssembly_cases s).elim (fun he => .inr (.inl ⟨_, he⟩))
        fun he => .inr (.inr ⟨hs, .inr (.inl ⟨hl, he⟩)⟩)
    · exact .inr (.inr ⟨hs, .inr (.inr ⟨line, hl, .inl ⟨hf, rfl⟩⟩)⟩)
    · exact .inr (.inl ⟨_, rfl⟩)
    · obtain ⟨-, ⟨-, line', -, ⟨-, rfl⟩ | ⟨-, rfl⟩⟩ | ⟨hm', -⟩⟩ := exec_cases hx
      · exact .inr (.inl ⟨_, rfl⟩)
      · exact .inr (.inr ⟨hs, .inr (.inr ⟨line, hl, .inr ⟨t, hf, by rw [enc_of_instr? hi]⟩⟩)⟩)
      · cases hm.symm.trans hm'
    · exact .inr (.inl ⟨_, rfl⟩)
  · cases hm.symm.trans hm'

/-- A step of a disassembly run stays at its end, fails, opens the stream, ends the run after the last
whole word, or lists the word at `index` with DEC's record of it (R174). -/
theorem step_disassembly_cases (hm : s.mode = .disassembly) (h : step s = .next s') :
    (s.status ≠ .running ∧ s' = s) ∨ (∃ f, s' = s.failRun f) ∨
    s.status = .running ∧
      ((∃ ws, s' = (s.warn ws).startLoop) ∨ s' = s.finish ∨
        ∃ w, s.currentWord = some w ∧ s' = s.listRecord (dec s.config.strictDecode w)) := by
  obtain hend | ⟨hs, ⟨-, rfl⟩ | ⟨-, ⟨hm', -⟩ | ⟨-, h⟩⟩⟩ := step_cases h
  · exact .inl hend
  · obtain ⟨-, ho⟩ | ⟨-, ⟨hm', -⟩ | ⟨-, ⟨f, -, ho⟩ | ⟨ws, -, ho⟩⟩⟩ := openRun_cases s
    · exact .inr (.inl ⟨_, ho⟩)
    · cases hm.symm.trans hm'
    · exact .inr (.inl ⟨f, ho⟩)
    · exact .inr (.inr ⟨hs, .inl ⟨ws, ho⟩⟩)
  · cases hm.symm.trans hm'
  · obtain ⟨-, rfl⟩ | ⟨-, w, hw, ⟨i, hd, hx⟩ | ⟨e, hd, rfl⟩⟩ := disassembleStep_cases h
    · exact (endDisassembly_cases s).elim (fun he => .inr (.inl ⟨_, he⟩))
        fun he => .inr (.inr ⟨hs, .inr (.inl he)⟩)
    · obtain ⟨-, ⟨hm', -⟩ | ⟨-, w', hw', rfl⟩⟩ := exec_cases hx
      · cases hm.symm.trans hm'
      · cases hw.symm.trans hw'
        exact .inr (.inr ⟨hs, .inr (.inr ⟨w, hw, by rw [dec_of_ok hd]⟩)⟩)
    · exact .inr (.inr ⟨hs, .inr (.inr ⟨w, hw, by rw [dec_of_error hd]⟩)⟩)

/-- The step on a word of the stream lists DEC's record of it, known or unknown (R174, R175). -/
theorem step_of_readsWord {w : Word} (hw : ReadsWord s w) :
    step s = .next (s.listRecord (dec s.config.strictDecode w)) := by
  cases hd : decode s.config.strictDecode w with
  | ok i =>
    rw [step_disassembly hw.status hw.phase hw.mode, disassembleStep, if_pos hw.whole]
    simp only [hw.current, hd, exec_disassembly i hw.status hw.mode, disassembleWord, dec_of_ok hd]
  | error e => rw [step_of_decode_error hw hd, dec_of_error hd]

end steps

/-! ### The words of an assembly run (R172) -/

/-- The word of a source line, from the line alone: ENC of FE's token record, if FE makes one (R172). -/
def lineWord (line : Text) : Option Word :=
  match frontEnd line with
  | .tok t => some (enc t).word
  | _ => none

theorem lineWord_of_tok {line : Text} {t : Tok} (h : frontEnd line = .tok t) :
    lineWord line = some (enc t).word := by
  rw [lineWord, h]

theorem lineWord_of_skip {line : Text} (h : frontEnd line = .skip) : lineWord line = none := by rw [lineWord, h]

/-- The invariant behind R172: while the run goes on its words are those of the lines before `line_no`,
when it is DONE those of all lines. -/
structure WordsOfLines (text : Text) (s : State) : Prop where
  mode : s.mode = .assembly
  text_eq : s.text = text
  line_pos : 1 ≤ s.lineNo
  running : s.status = .running → s.words = (s.lines.take (s.lineNo - 1)).filterMap lineWord
  done : s.status = .done → s.words = s.lines.filterMap lineWord

theorem wordsOfLines_beginAssembly (cfg : Config) (env : Environment) (text : Text) :
    WordsOfLines text (beginAssembly cfg env text) where
  mode := rfl
  text_eq := rfl
  line_pos := Nat.le_refl 1
  running _ := rfl
  done h := by cases h

/-- The current line is the one that comes next after those before `line_no`. -/
theorem filterMap_lines_of_currentLine {s : State} {line : Text} (hpos : 1 ≤ s.lineNo)
    (hl : s.currentLine = some line) :
    (s.lines.take s.lineNo).filterMap lineWord =
      (s.lines.take (s.lineNo - 1)).filterMap lineWord ++ (lineWord line).toList := by
  have hsucc : s.lineNo = s.lineNo - 1 + 1 := by omega
  have hget : s.lines[s.lineNo - 1]? = some line := hl
  rw [hsucc, List.take_add_one, Nat.add_sub_cancel, hget, List.filterMap_append]
  cases h : lineWord line <;> simp [h]

theorem step_keeps_wordsOfLines {text : Text} (s t : State) (hs : WordsOfLines text s)
    (h : step s = .next t) : WordsOfLines text t := by
  obtain ⟨hm, ht, hpos, hrun, hdone⟩ := hs
  obtain ⟨-, rfl⟩ | ⟨f, rfl⟩ | ⟨hr, rfl | ⟨hl, rfl⟩ | ⟨line, hl, ⟨hf, rfl⟩ | ⟨tok, hf, rfl⟩⟩⟩ :=
    step_assembly_cases hm h
  · exact ⟨hm, ht, hpos, hrun, hdone⟩
  · exact ⟨hm, ht, hpos, nofun, nofun⟩
  · exact ⟨hm, ht, hpos, hrun, hdone⟩
  · have hall : s.lines.length ≤ s.lineNo - 1 := List.getElem?_eq_none_iff.mp hl
    exact ⟨hm, ht, hpos, nofun, fun _ => by simpa [List.take_of_length_le hall] using hrun hr⟩
  · refine ⟨hm, ht, Nat.le_add_left .., fun _ => ?_, fun hd => by simp [hr] at hd⟩
    simp [filterMap_lines_of_currentLine hpos hl, lineWord_of_skip hf, hrun hr]
  · refine ⟨hm, ht, Nat.le_add_left .., fun _ => ?_, fun hd => by simp [hr] at hd⟩
    simp [filterMap_lines_of_currentLine hpos hl, lineWord_of_tok hf, hrun hr]

/-- Settles O38: the invariant `WordsOfLines` holds at the start and every step keeps it. -/
theorem eachWordDependsOnItsLineAlone : Obligations.EachWordDependsOnItsLineAlone := by
  intro cfg env text k t hrun hdone
  have ht := run_induction step_keeps_wordsOfLines k _ t (wordsOfLines_beginAssembly cfg env text) hrun
  have hwords := ht.done hdone
  rw [State.lines, ht.text_eq] at hwords
  exact hwords

/-! ### The listing line (R176, R177) -/

/-- `LINE(a, w, t)` with its separators written as strings (R176). -/
theorem listingLine_eq (style : HexStyle) (a w : Word) (t : Text) :
    listingLine style a w t =
      listingHex style a ++ ": ".toList ++ listingHex style w ++ "  ".toList ++ t := rfl

theorem toNat_listingAddress {i : Nat} (h : i < 2 ^ 30) : (listingAddress i).toNat = 4 * i := by
  rw [listingAddress, BitVec.toNat_ofNat, Nat.mod_eq_of_lt (by omega)]

/-- Settles O40: the step lists the word at `listingAddress s.index`, which is exact below 2^30 words. -/
theorem listingAddressIsFourTimesTheIndex : Obligations.ListingAddressIsFourTimesTheIndex := by
  intro s w hw hi
  refine ⟨_, listingAddress s.index, step_of_readsWord hw, toNat_listingAddress hi, rfl, ?_⟩
  rw [State.listRecord_listing, dec_raw, listingLine_eq]

/-! ### The default LISTING_HEX (R7, R176) -/

theorem hexChar_eq_getD {d : Nat} (h : d < 16) : hexChar d = "0123456789ABCDEF".toList.getD d '?' := by
  interval_cases d <;> rfl

/-- `hexDigits` prints the base-16 digits of a number that fits, most significant first. -/
theorem hexDigits_eq_map {digits n : Nat} (h : n < 16 ^ digits) :
    ∃ ds : List Nat, ds.length = digits ∧ (∀ d ∈ ds, d < 16) ∧ hexDigits digits n = ds.map hexChar ∧
      n = Nat.ofDigits 16 ds.reverse := by
  induction digits generalizing n with
  | zero => exact ⟨[], rfl, by simp, rfl, by simpa using h⟩
  | succ k ih =>
    obtain ⟨ds, hlen, hlt, htext, hval⟩ := ih (n := n / 16) (by omega)
    refine ⟨ds ++ [n % 16], by simp [hlen], fun d hd => ?_, by simp [hexDigits, htext], ?_⟩
    · obtain hd | hd := List.mem_append.mp hd
      · exact hlt d hd
      · rw [List.mem_singleton.mp hd]
        exact Nat.mod_lt n (by decide)
    · rw [List.reverse_concat, Nat.ofDigits_cons, ← hval]
      exact (Nat.mod_add_div n 16).symm

theorem isUpperHex8_listingHex (w : Word) : IsUpperHex8 (listingHex .upper8 w) w.toNat := by
  have hw : w.toNat < 16 ^ 8 := w.isLt
  obtain ⟨ds, hlen, hlt, htext, hval⟩ := hexDigits_eq_map hw
  have hchars : ds.map hexChar = ds.map fun d => "0123456789ABCDEF".toList.getD d '?' :=
    List.map_congr_left fun d hd => hexChar_eq_getD (hlt d hd)
  exact ⟨ds, hlen, hlt, htext.trans hchars, hval⟩

/-! ### The listing of a run (R176) -/

/-- The invariant behind R176: every line a disassembly run has listed so far is ASCII. -/
structure ListsAscii (cfg : Config) (s : State) : Prop where
  config_eq : s.config = cfg
  mode : s.mode = .disassembly
  ascii : ∀ line ∈ s.listing, Text.isAscii line = true

theorem listsAscii_beginDisassembly (cfg : Config) (env : Environment) (m : Memory) :
    ListsAscii cfg (beginDisassembly cfg env m) := ⟨rfl, rfl, nofun⟩

theorem step_keeps_listsAscii {cfg : Config} (htext : Text.isAscii cfg.unknownText = true) (s t : State)
    (hs : ListsAscii cfg s) (h : step s = .next t) : ListsAscii cfg t := by
  obtain ⟨rfl, hm, ha⟩ := hs
  obtain ⟨-, rfl⟩ | ⟨f, rfl⟩ | ⟨-, ⟨ws, rfl⟩ | rfl | ⟨w, -, rfl⟩⟩ := step_disassembly_cases hm h
  · exact ⟨rfl, hm, ha⟩
  · exact ⟨rfl, hm, nofun⟩
  · exact ⟨rfl, hm, ha⟩
  · exact ⟨rfl, hm, ha⟩
  · refine ⟨rfl, hm, fun line hline => ?_⟩
    obtain hline | hline := List.mem_append.mp hline
    · exact ha line hline
    · rw [List.mem_singleton.mp hline, isAscii_listingLine]
      exact isAscii_txt htext _

/-- A run whose output is a listing gives its lines with one LF after each. -/
theorem output_eq_listing {s : State} {text : Text} {warnings : List Warning}
    (h : s.output = some (.listing text warnings)) : text = listingText s.listing := by
  unfold State.output at h
  split at h <;> cases h
  rfl

theorem isAscii_listingText {lines : List Text} (h : ∀ line ∈ lines, Text.isAscii line = true) :
    Text.isAscii (listingText lines) = true := by
  induction lines with
  | nil => rfl
  | cons line lines ih =>
    obtain ⟨hline, hlines⟩ := List.forall_mem_cons.mp h
    have hcons : listingText (line :: lines) = line ++ ['\n'] ++ listingText lines := rfl
    simp [hcons, hline, ih hlines]

/-- Settles O52: the step on a word, the digits of the default LISTING_HEX, and the invariant
`ListsAscii` for the listing of a run. -/
theorem listingHasItsFormat : Obligations.ListingHasItsFormat := by
  refine ⟨fun s w hw => ⟨_, step_of_readsWord hw, ?_⟩, rfl, isUpperHex8_listingHex, rfl, ?_⟩
  · rw [State.listRecord_listing, dec_raw, listingLine_eq]
  · intro cfg env m k t text warnings hcfg hrun hout
    obtain ⟨-, htext⟩ := Bool.and_eq_true_iff.mp hcfg
    have ht := run_induction (step_keeps_listsAscii htext) k _ t
      (listsAscii_beginDisassembly cfg env m) hrun
    rw [output_eq_listing hout]
    exact ⟨isAscii_listingText ht.ascii, rfl⟩

end Sys2Proof.Machine

/-! PROOFS. The exceptions family: the order in which FE reports what is wrong with a line (R82, R207). -/

namespace Sys2Proof.Machine

open Sys2Proof.Claims

/-! ### The condition of one operand (R78, R79, R80) -/

/-- The failure of a read, if it failed. -/
def readError? {α : Type} : Except LineError α → Option LineError
  | .error e => some e
  | .ok _ => none

@[simp] theorem readError?_error {α : Type} (e : LineError) :
    readError? (.error e : Except LineError α) = some e := rfl
@[simp] theorem readError?_ok {α : Type} (x : α) : readError? (.ok x) = none := rfl

@[simp] theorem operandError?_reg (t : Text) : operandError? .reg t = readError? (readReg t) := by
  rw [operandError?]; cases readReg t <;> rfl
@[simp] theorem operandError?_imm (t : Text) : operandError? .imm t = readError? (readImm t) := by
  rw [operandError?]; cases readImm t <;> rfl
@[simp] theorem operandError?_mem (t : Text) : operandError? .mem t = readError? (readMem t) := by
  rw [operandError?]; cases readMem t <;> rfl

/-- The immediate of a MEM operand is reported before its register. -/
theorem operandError?_mem_of_isMemShape {token imm reg : Text} (h : IsMemShape token imm reg) :
    operandError? .mem token = (operandError? .imm imm).or (operandError? .reg reg) := by
  rw [operandError?_mem, operandError?_imm, operandError?_reg, readMem_of_isMemShape h]
  cases readImm imm with
  | error e => rfl
  | ok v => cases readReg reg <;> rfl

/-- The shape of a MEM operand is reported before its parts. -/
theorem operandError?_mem_of_not_isMemShape {token : Text} (h : ¬∃ imm reg, IsMemShape token imm reg) :
    operandError? .mem token = some ⟨.malformedMemoryOperand, token⟩ := by
  obtain ⟨-, hshape, -⟩ := memoryOperandGrammar
  rw [operandError?_mem, hshape token h, readError?_error]

/-! ### The first condition of an operand list (R82) -/

/-- The first condition that operands of the given kinds raise, left to right. -/
def firstOperandError? (operands : List (OperandKind × Text)) : Option LineError :=
  operands.findSome? fun p => operandError? p.1 p.2

@[simp] theorem firstOperandError?_nil : firstOperandError? [] = none := rfl

@[simp] theorem firstOperandError?_cons (k : OperandKind) (t : Text) (ps : List (OperandKind × Text)) :
    firstOperandError? ((k, t) :: ps) = (operandError? k t).or (firstOperandError? ps) := by
  rw [firstOperandError?, List.findSome?_cons]
  cases operandError? k t <;> rfl

section readers
variable (a b c : Text)

theorem readError?_readRegRegReg : readError? (readRegRegReg a b c) =
    firstOperandError? [(.reg, a), (.reg, b), (.reg, c)] := by
  unfold readRegRegReg
  cases ha : readReg a with
  | error e => simp [ha]
  | ok x =>
    cases hb : readReg b with
    | error e => simp [ha, hb]
    | ok y => cases hc : readReg c <;> simp [ha, hb, hc]

theorem readError?_readRegRegImm : readError? (readRegRegImm a b c) =
    firstOperandError? [(.reg, a), (.reg, b), (.imm, c)] := by
  unfold readRegRegImm
  cases ha : readReg a with
  | error e => simp [ha]
  | ok x =>
    cases hb : readReg b with
    | error e => simp [ha, hb]
    | ok y => cases hc : readImm c <;> simp [ha, hb, hc]

theorem readError?_readRegImm : readError? (readRegImm a b) =
    firstOperandError? [(.reg, a), (.imm, b)] := by
  unfold readRegImm
  cases ha : readReg a with
  | error e => simp [ha]
  | ok x => cases hb : readImm b <;> simp [ha, hb]

theorem readError?_readRegMem : readError? (readRegMem a b) =
    firstOperandError? [(.reg, a), (.mem, b)] := by
  unfold readRegMem
  cases ha : readReg a with
  | error e => simp [ha]
  | ok x => cases hb : readMem b <;> simp [ha, hb]

end readers

/-! ### Binding reports the first condition of the operands (R81, R82) -/

/-- The answer that a line's first condition calls for: that condition, or a token record with the
selector of the line's mnemonic when there is none. -/
def Answers (sel : Opcode) (r : LineResult) : Option LineError → Prop
  | some e => r = .failed e
  | none => ∃ t, r = .tok t ∧ t.sel = sel

theorem Answers.failed {sel : Opcode} {r : LineResult} {o : Option LineError} (h : Answers sel r o)
    {e : LineError} (he : o = some e) : r = .failed e := by
  subst he; exact h

theorem Answers.tok {sel : Opcode} {r : LineResult} {o : Option LineError} (h : Answers sel r o)
    (hnone : o = none) : ∃ t, r = .tok t ∧ t.sel = sel := by
  subst hnone; exact h

section binding
variable (sel : Opcode) (a b c : Text)

theorem tokRegRegReg_answers :
    Answers sel (tokRegRegReg sel a b c) (firstOperandError? [(.reg, a), (.reg, b), (.reg, c)]) := by
  rw [← readError?_readRegRegReg, tokRegRegReg]
  cases readRegRegReg a b c with
  | error e => rfl
  | ok x => exact ⟨_, rfl, rfl⟩

theorem tokRegRegImm_answers :
    Answers sel (tokRegRegImm sel a b c) (firstOperandError? [(.reg, a), (.reg, b), (.imm, c)]) := by
  rw [← readError?_readRegRegImm, tokRegRegImm]
  cases readRegRegImm a b c with
  | error e => rfl
  | ok x => exact ⟨_, rfl, rfl⟩

theorem tokBranch_answers :
    Answers sel (tokBranch sel a b c) (firstOperandError? [(.reg, a), (.reg, b), (.imm, c)]) := by
  rw [← readError?_readRegRegImm, tokBranch]
  cases readRegRegImm a b c with
  | error e => rfl
  | ok x => exact ⟨_, rfl, rfl⟩

theorem tokRegImm_answers :
    Answers sel (tokRegImm sel a b) (firstOperandError? [(.reg, a), (.imm, b)]) := by
  rw [← readError?_readRegImm, tokRegImm]
  cases readRegImm a b with
  | error e => rfl
  | ok x => exact ⟨_, rfl, rfl⟩

theorem tokLoad_answers :
    Answers sel (tokLoad sel a b) (firstOperandError? [(.reg, a), (.mem, b)]) := by
  rw [← readError?_readRegMem, tokLoad]
  cases readRegMem a b with
  | error e => rfl
  | ok x => exact ⟨_, rfl, rfl⟩

theorem tokStore_answers :
    Answers sel (tokStore sel a b) (firstOperandError? [(.reg, a), (.mem, b)]) := by
  rw [← readError?_readRegMem, tokStore]
  cases readRegMem a b with
  | error e => rfl
  | ok x => exact ⟨_, rfl, rfl⟩

end binding

/-- Operands in the right number are bound, or the first wrong one of them is reported. -/
theorem bindOperands_answers {m : Mnemonic} {ops : List Text} (hl : ops.length = (operandKinds m).length) :
    Answers m.opcode (bindOperands m ops) (firstOperandError? ((operandKinds m).zip ops)) := by
  cases m with
  | halt => obtain rfl := List.length_eq_zero_iff.mp hl; exact ⟨_, rfl, rfl⟩
  | add | mul | sub => obtain ⟨a, b, c, rfl⟩ := List.length_eq_three.mp hl; exact tokRegRegReg_answers _ a b c
  | addi | slli => obtain ⟨a, b, c, rfl⟩ := List.length_eq_three.mp hl; exact tokRegRegImm_answers _ a b c
  | bne | blt => obtain ⟨a, b, c, rfl⟩ := List.length_eq_three.mp hl; exact tokBranch_answers _ a b c
  | lui => obtain ⟨a, b, rfl⟩ := List.length_eq_two.mp hl; exact tokRegImm_answers _ a b
  | lw => obtain ⟨a, b, rfl⟩ := List.length_eq_two.mp hl; exact tokLoad_answers _ a b
  | sw => obtain ⟨a, b, rfl⟩ := List.length_eq_two.mp hl; exact tokStore_answers _ a b

/-! ### The order of FE's tests on a line (R82) -/

section tests
variable {line : Text} {m : Mnemonic}

/-- FE after a mnemonic it knows: empty operand, count, operands. A blank line has no mnemonic. -/
theorem frontEnd_of_mnemonic?_some (hm : mnemonic? (mnemonicToken (preprocess line)) = some m) :
    frontEnd line =
      if [] ∈ operandTokens (operandText (preprocess line)) then
        .failed ⟨.malformedOperandList, operandText (preprocess line)⟩
      else if (operandTokens (operandText (preprocess line))).length ≠ (operandKinds m).length then
        .failed ⟨.operandCount, m.text⟩
      else bindOperands m (operandTokens (operandText (preprocess line))) := by
  have hne : preprocess line ≠ [] := fun h => by rw [h] at hm; cases hm
  rw [frontEnd, frontEndStripped, if_neg hne, hm]

variable (hm : mnemonic? (mnemonicToken (preprocess line)) = some m)
include hm

theorem frontEnd_of_empty_operand (hempty : [] ∈ operandTokens (operandText (preprocess line))) :
    frontEnd line = .failed ⟨.malformedOperandList, operandText (preprocess line)⟩ := by
  rw [frontEnd_of_mnemonic?_some hm, if_pos hempty]

variable (hfull : [] ∉ operandTokens (operandText (preprocess line)))
include hfull

theorem frontEnd_of_wrong_count
    (hl : (operandTokens (operandText (preprocess line))).length ≠ (operandKinds m).length) :
    frontEnd line = .failed ⟨.operandCount, m.text⟩ := by
  rw [frontEnd_of_mnemonic?_some hm, if_neg hfull, if_pos hl]

theorem frontEnd_answers
    (hl : (operandTokens (operandText (preprocess line))).length = (operandKinds m).length) :
    Answers m.opcode (frontEnd line)
      (firstOperandError? ((operandKinds m).zip (operandTokens (operandText (preprocess line))))) := by
  rw [frontEnd_of_mnemonic?_some hm, if_neg hfull, if_neg (not_not_intro hl)]
  exact bindOperands_answers hl

end tests

/-- Settles O28: FE's tests in their order, the last of which answers the operands' first condition; the
parts of a MEM operand in theirs. -/
theorem firstFailureOfALineIsReported : Obligations.FirstFailureOfALineIsReported := by
  refine ⟨fun line hne => ⟨frontEnd_of_mnemonic?_none hne, fun m hm => ⟨frontEnd_of_empty_operand hm,
    frontEnd_of_wrong_count hm, fun hfull hl => ?_⟩⟩, fun _ _ _ => operandError?_mem_of_isMemShape,
    fun _ => operandError?_mem_of_not_isMemShape, by rfl, by rfl⟩
  have hanswer := frontEnd_answers hm hfull hl
  exact ⟨fun _ => hanswer.failed, hanswer.tok⟩

end Sys2Proof.Machine

/-! PROOFS. The step: what it does to a run in each case, with the facts the case rests on, and what every
step keeps (10_state.md, 44_program.md, 60_exceptions.md, 70_reset_and_hazards.md). -/

namespace Sys2Proof.Machine

open Sys2Proof.Claims

/-! ### An instruction in a run (R170, R174) -/

section execution
variable {s : State} {line : Text} {w : Word}

theorem failRun_eq_failedWith (s : State) (f : Failure) : s.failRun f = failedWith s f := rfl

@[simp] theorem State.listRecord_phase (s : State) (r : DecRecord) : (s.listRecord r).phase = s.phase := rfl
@[simp] theorem State.listRecord_wordCount (s : State) (r : DecRecord) :
    (s.listRecord r).wordCount = s.wordCount := rfl

theorem exec_of_full (i : Instr) (h : AtLine s line) (hfull : s.words.length = s.config.maxWords) :
    exec i s = .next (s.failLine .programTooLarge line) := by
  rw [exec_assembly i h.status h.mode]
  simp [assembleTok, h.current, hfull]

theorem exec_of_room (i : Instr) (h : AtLine s line) (hroom : s.words.length ≠ s.config.maxWords) :
    exec i s = .next (s.emit (encode i)) := by
  rw [exec_assembly i h.status h.mode]
  simp [assembleTok, h.current, hroom]

theorem exec_of_atWord (i : Instr) (h : AtWord s w) : exec i s = .next (s.listRecord (i.record w)) := by
  rw [exec_disassembly i h.status h.mode, disassembleWord, h.current]

end execution

/-! ### A line of an assembly run in its loop (R170) -/

section lines
variable {s : State} {line : Text} (h : AtLine s line) (hp : s.phase = .working)
include h hp

theorem step_of_line : step s = assembleResult (frontEnd line) s := by
  rw [step_assembly h.status hp h.mode, assembleStep, h.current]

theorem step_of_skip (hf : frontEnd line = .skip) : step s = .next s.skipLine := by
  rw [step_of_line h hp, hf, assembleResult]

theorem step_of_failed {e : LineError} (hf : frontEnd line = .failed e) :
    step s = .next (s.failLine e.code e.token) := by
  rw [step_of_line h hp, hf, assembleResult]

theorem step_of_tok {t : Tok} {i : Instr} (hf : frontEnd line = .tok t) (hi : t.instr? = some i) :
    step s = exec i s := by
  rw [step_of_line h hp, hf]
  simp only [assembleResult, hi]

end lines

/-! ### The cases of a step -/

/-- The run is RUNNING and in its loop. -/
structure Looping (s : State) (m : Mode) : Prop where
  status : s.status = .running
  phase : s.phase = .working
  mode : s.mode = m

/-- Why the next step of a run that is RUNNING fails, by the record it leaves (R170, R174, R206). -/
inductive FailsWith (s : State) : Failure → Prop
  | inputMissing (hp : s.phase = .opening) (hio : s.env.inputMissing = true) : FailsWith s .io
  | badStream {f : Failure} (hp : s.phase = .opening) (hm : s.mode = .disassembly)
      (hc : checkStream s.config s.stream = .error f) : FailsWith s f
  | outputRefused (hp : s.phase = .working) (hio : s.env.writeFails = true) : FailsWith s .io
  | badLine {line : Text} {e : LineError} (hp : s.phase = .working) (hl : AtLine s line)
      (hf : frontEnd line = .failed e) : FailsWith s (.atLine e.code s.lineNo e.token)
  | programTooLarge {line : Text} {i : Instr} (hp : s.phase = .working) (hl : AtLine s line)
      (hf : frontEnd line = .tok i.tok) (hfull : s.words.length = s.config.maxWords) :
      FailsWith s (.atLine .programTooLarge s.lineNo line)

/-- What a step can do, each case with the facts it rests on (R170, R174, R178, R210). -/
inductive Transition (s : State) : State → Prop
  | ended (hs : s.status ≠ .running) : Transition s s
  | fail {f : Failure} (hs : s.status = .running) (hf : FailsWith s f) : Transition s (s.failRun f)
  | openText (hs : s.status = .running) (hp : s.phase = .opening) (hm : s.mode = .assembly) :
      Transition s s.startLoop
  | openStream {ws : List Warning} (hs : s.status = .running) (hp : s.phase = .opening)
      (hm : s.mode = .disassembly) (hc : checkStream s.config s.stream = .ok ws) :
      Transition s (s.warn ws).startLoop
  | skipLine {line : Text} (hp : s.phase = .working) (hl : AtLine s line)
      (hf : frontEnd line = .skip) : Transition s s.skipLine
  | emit {line : Text} {i : Instr} (hp : s.phase = .working) (hl : AtLine s line)
      (hf : frontEnd line = .tok i.tok) (hroom : s.words.length ≠ s.config.maxWords) :
      Transition s (s.emit (encode i))
  | writeObject (h : Looping s .assembly) (hl : s.currentLine = none) :
      Transition s s.writeObject.finish
  | listWord {w : Word} (hw : ReadsWord s w) :
      Transition s (s.listRecord (dec s.config.strictDecode w))
  | finish (h : Looping s .disassembly) (hi : s.wordCount ≤ s.index) : Transition s s.finish

theorem openRun_transition {s : State} (hs : s.status = .running) (hp : s.phase = .opening) :
    Transition s (openRun s) := by
  obtain ⟨hio, ho⟩ | ⟨-, ⟨hm, ho⟩ | ⟨hm, ⟨f, hc, ho⟩ | ⟨ws, hc, ho⟩⟩⟩ := openRun_cases s <;> rw [ho]
  · exact .fail hs (.inputMissing hp hio)
  · exact .openText hs hp hm
  · exact .fail hs (.badStream hp hm hc)
  · exact .openStream hs hp hm hc

theorem endAssembly_transition {s : State} (h : Looping s .assembly) (hl : s.currentLine = none) :
    Transition s (endAssembly s) := by
  unfold endAssembly
  split_ifs with hio
  · exact .fail h.status (.outputRefused h.phase hio)
  · exact .writeObject h hl

theorem endDisassembly_transition {s : State} (h : Looping s .disassembly)
    (hi : s.wordCount ≤ s.index) : Transition s (endDisassembly s) := by
  unfold endDisassembly
  split_ifs with hio
  · exact .fail h.status (.outputRefused h.phase hio)
  · exact .finish h hi

theorem assembleStep_transition {s s' : State} (h : Looping s .assembly)
    (hstep : assembleStep s = .next s') : Transition s s' := by
  obtain ⟨hl, rfl⟩ | ⟨line, hl, ⟨hf, rfl⟩ | ⟨e, hf, rfl⟩ | ⟨t, i, hf, hi, hx⟩ | ⟨t, hf, hi, -⟩⟩ :=
    assembleStep_cases hstep
  · exact endAssembly_transition h hl
  · exact .skipLine h.phase ⟨h.status, h.mode, hl⟩ hf
  · exact .fail h.status (.badLine h.phase ⟨h.status, h.mode, hl⟩ hf)
  · obtain ⟨i', rfl⟩ := frontEnd_eq_tok hf
    obtain rfl : i' = i := by simpa using hi
    have hat : AtLine s line := ⟨h.status, h.mode, hl⟩
    by_cases hfull : s.words.length = s.config.maxWords
    · rw [exec_of_full i' hat hfull] at hx
      cases hx
      exact .fail h.status (.programTooLarge h.phase hat hf hfull)
    · rw [exec_of_room i' hat hfull] at hx
      cases hx
      exact .emit h.phase hat hf hfull
  · obtain ⟨i, rfl⟩ := frontEnd_eq_tok hf
    simp at hi

theorem disassembleStep_transition {s s' : State} (h : Looping s .disassembly)
    (hstep : disassembleStep s = .next s') : Transition s s' := by
  obtain ⟨hi, rfl⟩ | ⟨hi, w, hw, -⟩ := disassembleStep_cases hstep
  · exact endDisassembly_transition h hi
  · have hread : ReadsWord s w := ⟨⟨h.status, h.mode, hw⟩, h.phase, hi⟩
    rw [← step_disassembly h.status h.phase h.mode, step_of_readsWord hread] at hstep
    cases hstep
    exact .listWord hread

theorem step_transition {s s' : State} (h : step s = .next s') : Transition s s' := by
  obtain ⟨hs, rfl⟩ | ⟨hs, ⟨hp, rfl⟩ | ⟨hp, ⟨hm, h⟩ | ⟨hm, h⟩⟩⟩ := step_cases h
  · exact .ended hs
  · exact openRun_transition hs hp
  · exact assembleStep_transition ⟨hs, hp, hm⟩ h
  · exact disassembleStep_transition ⟨hs, hp, hm⟩ h

/-! ### The invariant (R30, R31, R40, R53, R171, R176, R179) -/

section invariant
variable {s : State}

theorem lineNo_le_of_atLine {line : Text} (h : AtLine s line) : s.lineNo ≤ s.lines.length := by
  obtain ⟨hlt, -⟩ := List.getElem?_eq_some_iff.mp h.current
  omega

theorem inv_failRun (hs : s.Inv) (f : Failure) : (s.failRun f).Inv where
  config_wf := hs.config_wf
  stream_wf := hs.stream_wf
  line_pos := hs.line_pos
  line_le := hs.line_le
  words_le := Nat.zero_le _
  opening_empty hp := by
    obtain ⟨-, -, -, hi⟩ := hs.opening_empty hp
    exact ⟨rfl, rfl, rfl, hi⟩
  failed_empty _ _ := ⟨rfl, rfl, rfl⟩
  listing_length _ hne := absurd rfl (hne f)
  index_le := hs.index_le
  listing_ascii := nofun
  assembly_lists_nothing hm := by
    obtain ⟨-, -, hi⟩ := hs.assembly_lists_nothing hm
    exact ⟨rfl, rfl, hi⟩
  disassembly_emits_nothing hm := by
    obtain ⟨-, hl⟩ := hs.disassembly_emits_nothing hm
    exact ⟨rfl, hl⟩

theorem inv_startLoop (hs : s.Inv) : s.startLoop.Inv :=
  { hs with opening_empty := nofun }

theorem inv_warn_startLoop (hs : s.Inv) (hr : s.status = .running) (hm : s.mode = .disassembly)
    (ws : List Warning) : (s.warn ws).startLoop.Inv :=
  { hs with
    opening_empty := nofun
    failed_empty := fun f hf => by cases hr.symm.trans hf
    assembly_lists_nothing := fun hm' => by cases hm.symm.trans hm' }

theorem inv_skipLine {line : Text} (hs : s.Inv) (hp : s.phase = .working) (hl : AtLine s line) :
    s.skipLine.Inv :=
  { hs with
    line_pos := Nat.le_add_left ..
    line_le := Nat.succ_le_succ (lineNo_le_of_atLine hl)
    opening_empty := fun hp' => by cases hp.symm.trans hp'
    disassembly_emits_nothing := fun hm => by cases hl.mode.symm.trans hm }

theorem inv_emit {line : Text} (hs : s.Inv) (hp : s.phase = .working) (hl : AtLine s line)
    (hroom : s.words.length ≠ s.config.maxWords) (w : Word) : (s.emit w).Inv :=
  { hs with
    line_pos := Nat.le_add_left ..
    line_le := Nat.succ_le_succ (lineNo_le_of_atLine hl)
    words_le := by
      have hle := hs.words_le
      rw [State.emit_words, List.length_append, State.emit_config]
      exact Nat.lt_of_le_of_ne hle hroom
    opening_empty := fun hp' => by cases hp.symm.trans hp'
    failed_empty := fun f hf => by cases hl.status.symm.trans hf
    disassembly_emits_nothing := fun hm => by cases hl.mode.symm.trans hm }

theorem inv_writeObject_finish (hs : s.Inv) (hm : s.mode = .assembly) : s.writeObject.finish.Inv :=
  { hs with
    stream_wf := Memory.wf_ofBytes _
    failed_empty := nofun
    listing_length := fun hm' => by cases hm.symm.trans hm'
    index_le := fun hm' => by cases hm.symm.trans hm' }

theorem inv_finish (hs : s.Inv) (hr : s.status = .running) : s.finish.Inv :=
  { hs with
    failed_empty := nofun
    listing_length := fun hm _ => hs.listing_length hm fun f hf => by cases hr.symm.trans hf }

theorem inv_listRecord {w : Word} (hs : s.Inv) (hw : ReadsWord s w) (r : DecRecord) :
    (s.listRecord r).Inv :=
  { hs with
    opening_empty := fun hp => by cases hw.phase.symm.trans hp
    failed_empty := fun f hf => by cases hw.status.symm.trans hf
    listing_length := fun hm _ => by
      have hlen := hs.listing_length hm fun f hf => by cases hw.status.symm.trans hf
      rw [State.listRecord_listing, List.length_append, hlen]
      rfl
    index_le := fun _ => hw.whole
    listing_ascii := fun line hline => by
      obtain ⟨-, htext⟩ := Bool.and_eq_true_iff.mp hs.config_wf
      obtain hline | hline := List.mem_append.mp hline
      · exact hs.listing_ascii line hline
      · rw [List.mem_singleton.mp hline, isAscii_listingLine]
        exact isAscii_txt htext r
    assembly_lists_nothing := fun hm => by cases hw.mode.symm.trans hm }

end invariant

/-- Settles O45: each case of a step keeps the invariant. -/
theorem everyStepKeepsTheInvariant : Obligations.EveryStepKeepsTheInvariant := by
  intro s t hs hstep
  cases step_transition hstep with
  | ended => exact hs
  | fail => exact inv_failRun hs _
  | openText => exact inv_startLoop hs
  | openStream hr _ hm => exact inv_warn_startLoop hs hr hm _
  | skipLine hp hl => exact inv_skipLine hs hp hl
  | emit hp hl _ hroom => exact inv_emit hs hp hl hroom _
  | writeObject h => exact inv_writeObject_finish hs h.mode
  | listWord hw => exact inv_listRecord hs hw _
  | finish h => exact inv_finish hs h.status

section starts
variable {cfg : Config} (hcfg : cfg.wellFormed = true) (env : Environment)
include hcfg

theorem inv_beginAssembly (text : Text) : (beginAssembly cfg env text).Inv where
  config_wf := hcfg
  stream_wf := rfl
  line_pos := Nat.le_refl 1
  line_le := Nat.le_add_left ..
  words_le := Nat.zero_le _
  opening_empty _ := ⟨rfl, rfl, rfl, rfl⟩
  failed_empty := nofun
  listing_length := nofun
  index_le := nofun
  listing_ascii := nofun
  assembly_lists_nothing _ := ⟨rfl, rfl, rfl⟩
  disassembly_emits_nothing := nofun

theorem inv_beginDisassembly {m : Memory} (hm : Memory.wf m = true) :
    (beginDisassembly cfg env m).Inv where
  config_wf := hcfg
  stream_wf := hm
  line_pos := Nat.le_refl 1
  line_le := Nat.le_add_left ..
  words_le := Nat.zero_le _
  opening_empty _ := ⟨rfl, rfl, rfl, rfl⟩
  failed_empty := nofun
  listing_length _ _ := rfl
  index_le _ := Nat.zero_le _
  listing_ascii := nofun
  assembly_lists_nothing := nofun
  disassembly_emits_nothing _ := ⟨rfl, rfl⟩

end starts

/-- Settles O46: nothing is collected at the start of a run, and the reset state is the start of a
disassembly run of the empty stream (log 3). -/
theorem invariantHoldsAtTheStart : Obligations.InvariantHoldsAtTheStart :=
  ⟨inv_beginDisassembly (m := []) (by decide) {} rfl, fun _ env text hcfg => inv_beginAssembly hcfg env text,
    fun _ env _ hcfg => inv_beginDisassembly hcfg env⟩

/-! ### What no step changes (R53, R171, R232) -/

/-- Settles O49: `words` and `listing` change in a failing step or in their own direction alone, the stream
where the object is written. -/
theorem everyStepKeepsTheInputs : Obligations.EveryStepKeepsTheInputs := by
  intro s t hstep
  cases step_transition hstep with
  | fail =>
    exact ⟨rfl, rfl, rfl, rfl, fun _ => ⟨rfl, .inr rfl, rfl⟩, fun _ => ⟨fun _ => rfl, .inr rfl, rfl⟩⟩
  | ended | openText | openStream | finish =>
    exact ⟨rfl, rfl, rfl, rfl, fun _ => ⟨rfl, .inl rfl, rfl⟩, fun _ => ⟨fun _ => rfl, .inl rfl, rfl⟩⟩
  | skipLine _ hl | emit _ hl =>
    exact ⟨rfl, rfl, rfl, rfl, fun hm => absurd (hl.mode.symm.trans hm) nofun,
      fun _ => ⟨fun _ => rfl, .inl rfl, rfl⟩⟩
  | writeObject h =>
    exact ⟨rfl, rfl, rfl, rfl, fun hm => absurd (h.mode.symm.trans hm) nofun,
      fun _ => ⟨fun hne => absurd rfl hne, .inl rfl, rfl⟩⟩
  | listWord hw =>
    exact ⟨rfl, rfl, rfl, rfl, fun _ => ⟨rfl, .inl rfl, rfl⟩, fun hm => by cases hw.mode.symm.trans hm⟩

/-! ### A run steps on, and ends (R178) -/

theorem exists_next_of_atLine {s : State} {line : Text} (h : AtLine s line) (hp : s.phase = .working) :
    s.StepsOn := by
  cases hf : frontEnd line with
  | skip => exact ⟨_, step_of_skip h hp hf⟩
  | failed e => exact ⟨_, step_of_failed h hp hf⟩
  | tok t =>
    obtain ⟨i, rfl⟩ := frontEnd_eq_tok hf
    have hstep := step_of_tok h hp hf (instr?_tok i)
    by_cases hfull : s.words.length = s.config.maxWords
    · exact ⟨_, hstep.trans (exec_of_full i h hfull)⟩
    · exact ⟨_, hstep.trans (exec_of_room i h hfull)⟩

/-- The canonical form of the stream is all that a step asks for. -/
theorem stepsOn_of_stream_wf {s : State} (hwf : Memory.wf s.stream = true) : s.StepsOn := by
  by_cases hs : s.status = .running
  case neg => exact ⟨s, step_ended hs⟩
  cases hp : s.phase with
  | opening => exact ⟨_, step_opening hs hp⟩
  | working =>
    cases hm : s.mode with
    | assembly =>
      cases hl : s.currentLine with
      | some line => exact exists_next_of_atLine ⟨hs, hm, hl⟩ hp
      | none => exact ⟨endAssembly s, by rw [step_assembly hs hp hm, assembleStep, hl]⟩
    | disassembly =>
      by_cases hi : s.index < s.wordCount
      · obtain ⟨w, hw⟩ := exists_readWord hwf hi
        exact ⟨_, step_of_readsWord ⟨⟨hs, hm, hw⟩, hp, hi⟩⟩
      · exact ⟨endDisassembly s, by rw [step_disassembly hs hp hm, disassembleStep, if_neg hi]⟩

/-- Settles O47: a step asks for a word below the stream's number of words, and finds it. -/
theorem goodStatesStepOn : Obligations.GoodStatesStepOn := fun _ hs => stepsOn_of_stream_wf hs.stream_wf

theorem step_keeps_stream_wf {s t : State} (hwf : Memory.wf s.stream = true) (hstep : step s = .next t) :
    Memory.wf t.stream = true := by
  cases step_transition hstep with
  | writeObject => exact Memory.wf_ofBytes _
  | ended | fail | openText | openStream | skipLine | emit | listWord | finish => exact hwf

/-- The steps it takes to come into the loop. -/
def Phase.stepsToLoop : Phase → Nat
  | .opening => 1
  | .working => 0

/-- The steps of a RUNNING run that are still to come: the opening, one for each line or word left, and
the end. -/
def State.stepsLeft (s : State) : Nat :=
  s.phase.stepsToLoop +
    (match s.mode with
      | .assembly => s.lines.length + 1 - s.lineNo
      | .disassembly => s.wordCount - s.index) + 1

theorem stepsLeft_assembly {s : State} (hm : s.mode = .assembly) : s.stepsLeft =
    s.phase.stepsToLoop + (s.lines.length + 1 - s.lineNo) + 1 := by
  rw [State.stepsLeft, hm]

theorem stepsLeft_disassembly {s : State} (hm : s.mode = .disassembly) : s.stepsLeft =
    s.phase.stepsToLoop + (s.wordCount - s.index) + 1 := by
  rw [State.stepsLeft, hm]

/-- A step that does not end the run leaves fewer steps. -/
theorem stepsLeft_lt {s t : State} (hs : s.status = .running) (hstep : step s = .next t)
    (ht : t.status = .running) : t.stepsLeft < s.stepsLeft := by
  cases step_transition hstep with
  | ended hne => exact absurd hs hne
  | fail | writeObject | finish => cases ht
  | openText _ hp hm =>
    rw [stepsLeft_assembly hm, stepsLeft_assembly (s := s.startLoop) hm]
    simp [hp, Phase.stepsToLoop]
  | @openStream ws _ hp hm =>
    rw [stepsLeft_disassembly hm, stepsLeft_disassembly (s := (s.warn ws).startLoop) hm]
    simp [hp, Phase.stepsToLoop]
  | skipLine _ hl =>
    have hle := lineNo_le_of_atLine hl
    rw [stepsLeft_assembly hl.mode, stepsLeft_assembly (s := s.skipLine) hl.mode]
    simp only [State.skipLine_phase, State.skipLine_lines, State.skipLine_lineNo]
    omega
  | @emit _ i _ hl =>
    have hle := lineNo_le_of_atLine hl
    rw [stepsLeft_assembly hl.mode, stepsLeft_assembly (s := s.emit (encode i)) hl.mode]
    simp only [State.emit_phase, State.emit_lines, State.emit_lineNo]
    omega
  | @listWord w hw =>
    have hlt := hw.whole
    rw [stepsLeft_disassembly hw.mode, stepsLeft_disassembly (s := s.listRecord _) hw.mode]
    simp only [State.listRecord_phase, State.listRecord_wordCount, State.listRecord_index]
    omega

/-- A run on a canonical stream has ended after the steps that are left to it, and stays so. -/
theorem exists_run_ended {k : Nat} {s : State} (hwf : Memory.wf s.stream = true)
    (hk : s.status = .running → s.stepsLeft ≤ k) : ∃ t, run k s = .next t ∧ t.status ≠ .running := by
  induction k generalizing s with
  | zero =>
    refine ⟨s, rfl, fun hs => ?_⟩
    have hpos : 0 < s.stepsLeft := Nat.succ_pos _
    exact absurd (hk hs) (Nat.not_le.mpr hpos)
  | succ k ih =>
    obtain ⟨s', hstep⟩ := stepsOn_of_stream_wf hwf
    rw [run_succ_of_step k hstep]
    refine ih (step_keeps_stream_wf hwf hstep) fun hs' => ?_
    by_cases hs : s.status = .running
    · have hlt := stepsLeft_lt hs hstep hs'
      have hle := hk hs
      omega
    · rw [step_ended hs] at hstep
      cases hstep
      exact absurd hs' hs

/-- Settles O48: the steps that are left number at most the lines or the words and two more. -/
theorem everyRunEnds : Obligations.EveryRunEnds := by
  intro s hs
  obtain ⟨t, hrun, hended⟩ := exists_run_ended hs.stream_wf fun _ => Nat.le_refl s.stepsLeft
  refine ⟨s.stepsLeft, t, ?_, hrun, hended⟩
  have hopen : s.phase.stepsToLoop ≤ 1 := by cases s.phase <;> simp [Phase.stepsToLoop]
  cases hm : s.mode with
  | assembly => rw [stepsLeft_assembly hm]; omega
  | disassembly => rw [stepsLeft_disassembly hm]; omega

/-! ### Fatal conditions (R201, R202, R206, R210, R211) -/

/-- The checks of a read name no line (R45, R174). -/
theorem checkStream_ne_atLine {cfg : Config} {m : Memory} {c : LineCondition} {n : Nat} {token : Text} :
    checkStream cfg m ≠ .error (.atLine c n token) := fun h => by
  obtain ⟨-, -, hc⟩ | ⟨-, -, -, hc⟩ | ⟨-, ⟨-, hc⟩ | ⟨-, hc⟩⟩ := checkStream_cases cfg m <;>
    cases h.symm.trans hc

/-- A record with a line names the current line of an assembly run (R202). -/
theorem FailsWith.line_eq {s : State} {c : LineCondition} {n : Nat} {token : Text}
    (h : FailsWith s (.atLine c n token)) : n = s.lineNo ∧ s.mode = .assembly := by
  cases h with
  | badStream _ _ hc => exact absurd hc checkStream_ne_atLine
  | badLine _ hl => exact ⟨rfl, hl.mode⟩
  | programTooLarge _ hl => exact ⟨rfl, hl.mode⟩

/-- Only a failing step takes a RUNNING run to FAILED. -/
theorem step_to_failed {s t : State} {f : Failure} (hs : s.status = .running) (hstep : step s = .next t)
    (ht : t.status = .failed f) : FailsWith s f ∧ t = s.failRun f := by
  cases step_transition hstep with
  | ended hne => exact absurd hs hne
  | fail _ hf => cases ht; exact ⟨hf, rfl⟩
  | openText | openStream => cases hs.symm.trans ht
  | skipLine _ hl | emit _ hl => cases hl.status.symm.trans ht
  | writeObject | finish => cases ht
  | listWord hw => cases hw.status.symm.trans ht

/-- Settles O42: the step is `failRun`, after which the run has ended. -/
theorem fatalConditionDiscardsAndStops : Obligations.FatalConditionDiscardsAndStops := by
  intro s t f hs hstep ht
  obtain ⟨hf, rfl⟩ := step_to_failed hs hstep ht
  refine ⟨failRun_eq_failedWith s f, rfl, ?_, run_ended nofun⟩
  rintro c n token rfl
  exact hf.line_eq

/-- The codes of R200 that FE raises. -/
def IsSyntaxCode (e : LineError) : Prop := 1 ≤ e.code.number ∧ e.code.number ≤ 6

/-- They are all but the two conditions with a line that SEQ raises. -/
theorem isSyntaxCode_of_ne {e : LineError} (hsel : e.code ≠ .unrecognizedSelector)
    (hsize : e.code ≠ .programTooLarge) : IsSyntaxCode e := by
  unfold IsSyntaxCode
  cases hc : e.code with
  | unrecognizedSelector => exact absurd hc hsel
  | programTooLarge => exact absurd hc hsize
  | unknownMnemonic | invalidRegister | invalidImmediate | malformedMemoryOperand | operandCount
  | malformedOperandList => decide

theorem isSyntaxCode_of_readReg {t : Text} {e : LineError} (h : readReg t = .error e) : IsSyntaxCode e := by
  unfold readReg at h
  split at h <;> cases h
  exact isSyntaxCode_of_ne nofun nofun

theorem isSyntaxCode_of_readImm {t : Text} {e : LineError} (h : readImm t = .error e) : IsSyntaxCode e := by
  unfold readImm at h
  split at h <;> cases h
  exact isSyntaxCode_of_ne nofun nofun

theorem isSyntaxCode_of_readMem {t : Text} {e : LineError} (h : readMem t = .error e) : IsSyntaxCode e := by
  unfold readMem at h
  split_ifs at h
  · split at h
    · cases h
      exact isSyntaxCode_of_readImm ‹_›
    · split at h <;> cases h
      exact isSyntaxCode_of_readReg ‹_›
  · cases h
    exact isSyntaxCode_of_ne nofun nofun

theorem readError?_eq_some {α : Type} {r : Except LineError α} {e : LineError}
    (h : readError? r = some e) : r = .error e := by
  cases r with
  | error e' => cases h; rfl
  | ok x => cases h

theorem isSyntaxCode_of_operandError? {k : OperandKind} {t : Text} {e : LineError}
    (h : operandError? k t = some e) : IsSyntaxCode e := by
  cases k with
  | reg => exact isSyntaxCode_of_readReg (readError?_eq_some ((operandError?_reg t).symm.trans h))
  | imm => exact isSyntaxCode_of_readImm (readError?_eq_some ((operandError?_imm t).symm.trans h))
  | mem => exact isSyntaxCode_of_readMem (readError?_eq_some ((operandError?_mem t).symm.trans h))

/-- Operands are bound to a token record, or one of them raises its condition. -/
theorem Answers.failed_or_tok {sel : Opcode} {r : LineResult} {operands : List (OperandKind × Text)}
    (h : Answers sel r (firstOperandError? operands)) :
    (∃ e, r = .failed e ∧ IsSyntaxCode e) ∨ ∃ t, r = .tok t := by
  cases ho : firstOperandError? operands with
  | none => exact .inr ((h.tok ho).imp fun _ ht => ht.1)
  | some e =>
    obtain ⟨p, -, hp⟩ := List.exists_of_findSome?_eq_some ho
    exact .inl ⟨e, h.failed ho, isSyntaxCode_of_operandError? hp⟩

/-- What FE answers on a line that is not blank (R82, R201). -/
theorem frontEnd_failed_or_tok {line : Text} (hne : preprocess line ≠ []) :
    (∃ e, frontEnd line = .failed e ∧ IsSyntaxCode e) ∨ ∃ t, frontEnd line = .tok t := by
  cases hm : mnemonic? (mnemonicToken (preprocess line)) with
  | none => exact .inl ⟨_, frontEnd_of_mnemonic?_none hne hm, isSyntaxCode_of_ne nofun nofun⟩
  | some m =>
    by_cases hempty : [] ∈ operandTokens (operandText (preprocess line))
    · exact .inl ⟨_, frontEnd_of_empty_operand hm hempty, isSyntaxCode_of_ne nofun nofun⟩
    by_cases hl : (operandTokens (operandText (preprocess line))).length = (operandKinds m).length
    · exact (frontEnd_answers hm hempty hl).failed_or_tok
    · exact .inl ⟨_, frontEnd_of_wrong_count hm hempty hl, isSyntaxCode_of_ne nofun nofun⟩

theorem frontEnd_blank {line : Text} (h : preprocess line = []) : frontEnd line = .skip := by
  rw [frontEnd, frontEndStripped, if_pos h]

/-- Every condition FE raises has a code from 1 to 6 (R201). -/
theorem isSyntaxCode_of_frontEnd {line : Text} {e : LineError} (h : frontEnd line = .failed e) :
    IsSyntaxCode e := by
  by_cases hne : preprocess line = []
  · cases (frontEnd_blank hne).symm.trans h
  obtain ⟨e', he, hcode⟩ | ⟨t, ht⟩ := frontEnd_failed_or_tok hne
  · cases he.symm.trans h
    exact hcode
  · cases ht.symm.trans h

/-- Settles O41: FE's conditions have their codes, and the step on one is `failRun`. -/
theorem syntaxConditionsAreFatal : Obligations.SyntaxConditionsAreFatal := by
  intro s line e hl hp hf
  obtain ⟨hlo, hhi⟩ := isSyntaxCode_of_frontEnd hf
  exact ⟨hlo, hhi, step_of_failed hl hp hf, run_ended nofun⟩

/-- Settles O43: the opening of the input, and the two ends of a run. -/
theorem environmentFailureEndsTheRun : Obligations.EnvironmentFailureEndsTheRun := by
  refine ⟨fun s hs hp hio => ?_, fun s hs hp hm hl hio => ?_, fun s hs hp hm hi hio => ?_⟩
  · rw [step_opening hs hp, openRun, if_pos hio, failRun_eq_failedWith]
  · rw [step_assembly hs hp hm, assembleStep, hl, endAssembly, if_pos hio, failRun_eq_failedWith]
  · rw [step_disassembly hs hp hm, disassembleStep, if_neg (Nat.not_lt.mpr hi), endDisassembly,
      if_pos hio, failRun_eq_failedWith]

/-- Settles O44, by induction on the number of steps. -/
theorem endedRunStays : Obligations.EndedRunStays := fun _ k hs => run_ended hs k

end Sys2Proof.Machine

/-! PROOFS. The instructions: the word of each in an assembly run and its listing line in a disassembly run
(40_format_a.md to 43_halt_unknown.md), what they leave unchanged and where they stop; ENC's word as a sum of
fields, and the records of DEC and FE (30_encoding.md). -/

namespace Sys2Proof

/-! ### ENC and DEC (R63 to R66, R146) -/

/-- Settles O14: every field that DEC reads is the one that ENC packed. -/
theorem decodeInvertsEncode : Obligations.DecodeInvertsEncode := decode_encode

/-- Settles O13, by evaluation. -/
theorem writtenWordsDecode : Obligations.WrittenWordsDecode := by
  unfold Obligations.WrittenWordsDecode
  exact ⟨rfl, rfl, rfl, rfl, rfl⟩

/-- Two fields side by side, as a number. -/
theorem toNat_append_eq_add {m n : Nat} (hi : BitVec m) (lo : BitVec n) :
    (hi ++ lo).toNat = lo.toNat + 2 ^ n * hi.toNat := by
  rw [BitVec.toNat_append, ← Nat.shiftLeft_add_eq_or_of_lt lo.isLt, Nat.shiftLeft_eq]
  ring

section sums
variable (op : Opcode)

theorem toNat_packA (rs2 rs1 rd : RegIndex) : (packA op rs2 rs1 rd).toNat =
    op.toNat + 2 ^ 6 * rd.toNat + 2 ^ 11 * rs1.toNat + 2 ^ 16 * rs2.toNat := by
  have hreserved : (0 : BitVec 11).toNat = 0 := rfl
  simp only [packA, toNat_append_eq_add, hreserved]
  ring

theorem toNat_packB (imm : Imm) (rs1 rd : RegIndex) : (packB op imm rs1 rd).toNat =
    op.toNat + 2 ^ 6 * rd.toNat + 2 ^ 11 * rs1.toNat + 2 ^ 16 * imm.toNat := by
  simp only [packB, toNat_append_eq_add]
  ring

theorem toNat_packC (fieldA fieldB : RegIndex) (imm : Imm) : (packC op fieldA fieldB imm).toNat =
    op.toNat + 2 ^ 6 * (imm.toNat % 32) + 2 ^ 11 * fieldB.toNat + 2 ^ 16 * fieldA.toNat +
      2 ^ 21 * (imm.toNat / 32) := by
  have hlow : (imm.extractLsb' 0 5).toNat = imm.toNat % 32 := by simp
  have hhigh : (imm.extractLsb' 5 11).toNat = imm.toNat / 32 := by
    rw [BitVec.extractLsb'_toNat, Nat.shiftRight_eq_div_pow]
    exact Nat.mod_eq_of_lt (by omega)
  simp only [packC, toNat_append_eq_add, hlow, hhigh]
  ring

end sums

/-- Settles O15: each selector packs its format, whose word is the sum of its fields. -/
theorem encoderWordIsTheSumOfItsFields : Obligations.EncoderWordIsTheSumOfItsFields := by
  intro rd rs1 rs2 imm
  have hA (op : Opcode) := toNat_packA op rs2 rs1 rd
  have hB (op : Opcode) := toNat_packB op imm rs1 rd
  have hC (op : Opcode) (a b : RegIndex) := toNat_packC op a b imm
  have hlui := toNat_packB 5 imm 0 rd
  exact ⟨rfl, congrArg (·, true) (hA 1), congrArg (·, true) (hB 2), congrArg (·, true) (hC 3 rs1 rs2),
    congrArg (·, true) (hA 4), congrArg (·, true) hlui, congrArg (·, true) (hB 6),
    congrArg (·, true) (hC 7 rs1 rs2), congrArg (·, true) (hC 8 rs2 rs1), congrArg (·, true) (hB 9),
    congrArg (·, true) (hA 10)⟩

/-! ### The records (R27, R29, R66, R81) -/

theorem Instr.record_wellFormed (i : Instr) (w : Word) : (i.record w).wellFormed = true := by
  cases i <;> simp [Instr.record, DecRecord.wellFormed, recHalt, recAdd, recAddi, recBne, recMul, recLui,
    recLw, recSw, recBlt, recSlli, recSub]

theorem Instr.tok_wellFormed (i : Instr) : i.tok.wellFormed = true := by
  cases i <;> simp [Instr.tok, Tok.wellFormed]

theorem dec_wellFormed (strict : Bool) (w : Word) : (dec strict w).wellFormed = true := by
  cases h : decode strict w with
  | ok i => rw [dec_of_ok h, i.record_wellFormed]
  | error e => rw [dec_of_error h]; rfl

/-- Settles O21: DEC and FE make the records of instructions, and DEC besides them the unknown record. -/
theorem recordsAreWellFormed : Obligations.RecordsAreWellFormed := by
  refine ⟨fun strict w => ⟨dec_wellFormed strict w, dec_raw strict w⟩, fun line t h => ?_⟩
  obtain ⟨i, rfl⟩ := Machine.frontEnd_eq_tok h
  exact i.tok_wellFormed

end Sys2Proof

namespace Sys2Proof.Machine

open Sys2Proof.Claims

/-! ### In an assembly run (R170) -/

/-- An instruction in an assembly run that has room for its word (R170). -/
theorem exec_eq_afterEmit {s : State} {line : Text} (h : AtLine s line)
    (hroom : s.words.length ≠ s.config.maxWords) (i : Instr) :
    exec i s = .next (afterEmit s (encode i)) := exec_of_room i h hroom

/-- Settles O1: the words are those of `encode`. -/
theorem assemblingFormatAEmitsItsWord : Obligations.AssemblingFormatAEmitsItsWord := by
  intro s line rd rs1 rs2 h hroom
  have hexec := exec_eq_afterEmit h hroom
  exact ⟨hexec (.add rd rs1 rs2), hexec (.mul rd rs1 rs2), hexec (.sub rd rs1 rs2)⟩

/-- Settles O2, as O1. -/
theorem assemblingFormatBEmitsItsWord : Obligations.AssemblingFormatBEmitsItsWord := by
  intro s line rd rs1 imm h hroom
  have hexec := exec_eq_afterEmit h hroom
  exact ⟨hexec (.addi rd rs1 imm), hexec (.lw rd imm rs1), hexec (.slli rd rs1 imm), hexec (.lui rd imm)⟩

/-- Settles O3, as O1. -/
theorem assemblingFormatCEmitsItsWord : Obligations.AssemblingFormatCEmitsItsWord := by
  intro s line rs1 rs2 imm h hroom
  have hexec := exec_eq_afterEmit h hroom
  exact ⟨hexec (.bne rs1 rs2 imm), hexec (.sw rs2 imm rs1), hexec (.blt rs1 rs2 imm)⟩

/-- Settles O4, as O1. -/
theorem assemblingHaltEmitsTheZeroWord : Obligations.AssemblingHaltEmitsTheZeroWord :=
  fun _ _ h hroom => exec_eq_afterEmit h hroom .halt

/-- Settles O5: ENC has a word for every instruction, so the size decides. -/
theorem everyInstructionFailsAtTheSizeLimit : Obligations.EveryInstructionFailsAtTheSizeLimit :=
  fun i _ _ h hfull => exec_of_full i h hfull

/-! ### In a disassembly run (R174) -/

@[simp] theorem Instr.record_raw (i : Instr) (w : Word) : (i.record w).raw = w := by cases i <;> rfl

/-- The record of an instruction is no unknown word: it is listed without a warning (R174). -/
theorem listRecord_record (s : State) (i : Instr) (w : Word) :
    s.listRecord (i.record w) = s.list w (txt s.config.unknownText (i.record w)) := by
  have hknown : (i.record w).isUnknown = false := by
    simpa [DecRecord.isUnknown] using i.record_kind_ne w
  rw [State.listRecord, hknown, Instr.record_raw]
  simp [State.warn, State.list]

theorem list_eq_afterList (s : State) (w : Word) (t : Text) : s.list w t = afterList s w t := by
  rw [State.list, listingLine_eq, listingAddress, afterList]

/-- An instruction in a disassembly run is listed with its canonical text (R83, R174). -/
theorem exec_eq_afterList {s : State} {w : Word} (h : AtWord s w) (i : Instr) :
    exec i s = .next (afterList s w i.text) := by
  rw [exec_of_atWord i h, listRecord_record, txt_record, list_eq_afterList]

section texts
variable (m : Mnemonic) (a b c : Text)

theorem lineText_two : lineText m [a, b] = m.text ++ " ".toList ++ a ++ ", ".toList ++ b := by
  simp [lineText, List.intercalate, List.intersperse]

theorem lineText_three :
    lineText m [a, b, c] = m.text ++ " ".toList ++ a ++ ", ".toList ++ b ++ ", ".toList ++ c := by
  simp [lineText, List.intercalate, List.intersperse]

theorem lineText_mem (imm : Imm) (base : RegIndex) : lineText m [a, memText imm base] =
    m.text ++ " ".toList ++ a ++ ", ".toList ++ signed imm ++ "(".toList ++ x base ++ ")".toList := by
  rw [lineText_two]
  simp [memText, signed, immText, x, regText]

end texts

/-- Settles O6: the texts are the canonical ones. -/
theorem listingFormatAPrintsItsText : Obligations.ListingFormatAPrintsItsText := by
  intro s w rd rs1 rs2 h
  have htext (m : Mnemonic) := lineText_three m (x rd) (x rs1) (x rs2)
  have hexec (i : Instr) {t : Text} (ht : i.text = t) := ht ▸ exec_eq_afterList h i
  exact ⟨hexec (.add rd rs1 rs2) (htext .add), hexec (.mul rd rs1 rs2) (htext .mul),
    hexec (.sub rd rs1 rs2) (htext .sub)⟩

/-- Settles O7, as O6. -/
theorem listingFormatBPrintsItsText : Obligations.ListingFormatBPrintsItsText := by
  intro s w rd rs1 imm h
  have htext (m : Mnemonic) := lineText_three m (x rd) (x rs1) (signed imm)
  have hexec (i : Instr) {t : Text} (ht : i.text = t) := ht ▸ exec_eq_afterList h i
  exact ⟨hexec (.addi rd rs1 imm) (htext .addi), hexec (.lw rd imm rs1) (lineText_mem .lw (x rd) imm rs1),
    hexec (.slli rd rs1 imm) (htext .slli), hexec (.lui rd imm) (lineText_two .lui (x rd) (signed imm))⟩

/-- Settles O8, as O6. -/
theorem listingFormatCPrintsItsText : Obligations.ListingFormatCPrintsItsText := by
  intro s w rs1 rs2 imm h
  have htext (m : Mnemonic) := lineText_three m (x rs1) (x rs2) (signed imm)
  have hexec (i : Instr) {t : Text} (ht : i.text = t) := ht ▸ exec_eq_afterList h i
  exact ⟨hexec (.bne rs1 rs2 imm) (htext .bne), hexec (.sw rs2 imm rs1) (lineText_mem .sw (x rs2) imm rs1),
    hexec (.blt rs1 rs2 imm) (htext .blt)⟩

/-- Settles O9, as O6. -/
theorem listingHaltPrintsItsText : Obligations.ListingHaltPrintsItsText :=
  fun _ _ h => exec_eq_afterList h .halt

/-! ### Every instruction -/

/-- Settles O10: an instruction fails the run or emits in an assembly run, and lists in a disassembly run. -/
theorem everyInstructionKeepsTheRest : Obligations.EveryInstructionKeepsTheRest := by
  intro i s t h
  obtain ⟨-, ⟨hm, line, -, ⟨-, rfl⟩ | ⟨-, rfl⟩⟩ | ⟨hm, w, -, rfl⟩⟩ := exec_cases h
  · exact ⟨rfl, rfl, rfl, rfl, rfl, rfl, fun _ => rfl, fun _ => ⟨rfl, nofun⟩,
      fun hm' => absurd (hm.symm.trans hm') nofun⟩
  · exact ⟨rfl, rfl, rfl, rfl, rfl, rfl, fun _ => rfl, fun _ => ⟨rfl, fun _ => ⟨rfl, rfl⟩⟩,
      fun hm' => absurd (hm.symm.trans hm') nofun⟩
  · rw [listRecord_record]
    exact ⟨rfl, rfl, rfl, rfl, rfl, rfl, fun _ => rfl, fun hm' => absurd (hm.symm.trans hm') nofun,
      fun _ => ⟨rfl, rfl, rfl, rfl⟩⟩

theorem processInstr_ended {s : State} (hs : s.status ≠ .running) (t : Tok) (r : Word → DecRecord) :
    processInstr t r s = .fault .runEnded := by
  unfold processInstr
  split
  · contradiction
  · rfl

/-- Settles O11: every meaning is `processInstr`, which tests the status first, then line or word. -/
theorem instructionOutsideARunStops : Obligations.InstructionOutsideARunStops := by
  refine fun i s => ⟨fun hs => ?_, fun hs hm hl => ?_, fun hs hm hw => ?_⟩
  · rw [exec_eq, processInstr_ended hs]
  · rw [exec_assembly i hs hm, assembleTok, hl]
  · rw [exec_disassembly i hs hm, disassembleWord, hw]

/-- Settles O12: both loops hand the instruction to `exec`. -/
theorem stepRunsTheDecodedInstruction : Obligations.StepRunsTheDecodedInstruction := by
  refine ⟨fun s w i hw hd => ?_, fun s line t i hl hp => step_of_tok hl hp⟩
  rw [step_of_readsWord hw, dec_of_ok hd, exec_of_atWord i hw.toAtWord]

/-! ### Blank lines (R75, R82) -/

theorem isBlank_iff {c : Char} : isBlank c = true ↔ c = ' ' ∨ c = '\t' := by
  simp [isBlank]

/-- Stripping leaves nothing exactly of a text of whitespace. -/
theorem strip_eq_nil_iff {t : Text} : strip t = [] ↔ ∀ c ∈ t, isBlank c = true := by
  constructor
  · intro h c hc
    rw [strip, stripRight, List.reverse_eq_nil_iff, List.dropWhile_eq_nil_iff] at h
    rw [← List.takeWhile_append_dropWhile (p := isBlank) (l := t)] at hc
    obtain hleading | hrest := List.mem_append.mp hc
    · exact List.mem_takeWhile_imp hleading
    · exact h c (List.mem_reverse.mpr hrest)
  · intro h
    rw [strip, List.dropWhile_eq_nil_iff.mpr h]
    rfl

theorem frontEnd_eq_skip_iff {line : Text} : frontEnd line = .skip ↔ preprocess line = [] := by
  refine ⟨fun h => ?_, frontEnd_blank⟩
  by_contra hne
  obtain ⟨e, he, -⟩ | ⟨t, ht⟩ := frontEnd_failed_or_tok hne
  · cases he.symm.trans h
  · cases ht.symm.trans h

/-- Settles O29: FE skips a line of which preprocessing leaves nothing. -/
theorem blankAndCommentLinesAreSkipped : Obligations.BlankAndCommentLinesAreSkipped := by
  intro line
  rw [frontEnd_eq_skip_iff, preprocess, strip_eq_nil_iff]
  simp only [isBlank_iff, dropCR]

/-! ### Start values and numbers (R30, R31, R200, R231) -/

/-- Settles O36, by the definitions of the two starts. -/
theorem runsStartFresh : Obligations.RunsStartFresh :=
  ⟨fun _ _ _ => ⟨rfl, rfl, rfl, rfl, rfl, rfl, rfl⟩,
    fun _ _ _ => ⟨rfl, rfl, rfl, rfl, rfl, rfl, rfl, rfl, rfl⟩⟩

/-- Settles O50, by the definitions of the numbers. -/
theorem conditionNumbers : Obligations.ConditionNumbers := fun _ _ _ _ => ⟨rfl, rfl, rfl, rfl⟩

end Sys2Proof.Machine

/-! PROOFS. Whole runs: the stream that is written reads back as its words (20_memory.md), and a run stepped
to its end is ASSEMBLE or DISASSEMBLE of its input (44_program.md). -/

namespace Sys2Proof.Machine

open Sys2Proof.Claims

/-! ### The checks of a read pass or end the run (R42 to R45, R174) -/

section checks
variable {cfg : Config} {m : Memory}

theorem checkStream_streamTooLarge
    (hgood : cfg.objFormat = .rawLE ∨
      headerGood m = true ∧ headerCount m = wholeWords cfg.objFormat m)
    (hsize : cfg.maxWords < wholeWords cfg.objFormat m) :
    checkStream cfg m = .error .streamTooLarge := by
  obtain ⟨hf, hg, -⟩ | ⟨hf, -, hc, -⟩ | ⟨-, ⟨-, hlarge⟩ | ⟨hle, -⟩⟩ := checkStream_cases cfg m
  · simp [hf, hg] at hgood
  · obtain ⟨-, hgc⟩ := hgood.resolve_left (by simp [hf])
    exact absurd hgc hc
  · exact hlarge
  · exact absurd hsize (Nat.not_lt.mpr hle)

end checks

/-- Settles O51: the size is the last check, after the header and its count. -/
theorem tooLargeStreamFails : Obligations.TooLargeStreamFails := by
  refine fun cfg bs => ⟨fun hf hsize => ?_, ?_⟩
  · have hn := wholeWords_ofBytes_append (fmt := cfg.objFormat) (header := []) (by rw [hf]; rfl) bs
    exact step_beginDisassembly_error (checkStream_streamTooLarge (.inl hf) (hsize.trans_eq hn.symm))
  · rintro c0 c1 c2 c3 body hf rfl hcount hsize
    have hg := (headerGood_ofBytes ([0x00, 0xC0, 0xFF, 0xEE, c0, c1, c2, c3] ++ body)).mpr
      ⟨by simp, rfl⟩
    have hc := headerCount_ofBytes 0x00 0xC0 0xFF 0xEE c0 c1 c2 c3 body
    have hn := wholeWords_ofBytes_append (fmt := cfg.objFormat)
      (header := [0x00, 0xC0, 0xFF, 0xEE, c0, c1, c2, c3]) (by rw [hf]; rfl) body
    exact step_beginDisassembly_error (checkStream_streamTooLarge
      (.inr ⟨hg, hc.trans (hcount.trans hn.symm)⟩) (hsize.trans_eq hn.symm))

/-! ### The words of a stream (R44, R45) -/

/-- The words of a stream below an index. -/
def wordsBelow (fmt : ObjFormat) (m : Memory) (k : Nat) : List Word :=
  (List.range k).filterMap (readWord fmt m)

theorem streamWords_eq (fmt : ObjFormat) (m : Memory) :
    streamWords fmt m = wordsBelow fmt m (wholeWords fmt m) := rfl

theorem wordsBelow_succ {fmt : ObjFormat} {m : Memory} {k : Nat} {w : Word}
    (h : readWord fmt m k = some w) : wordsBelow fmt m (k + 1) = wordsBelow fmt m k ++ [w] := by
  rw [wordsBelow, List.range_succ, List.filterMap_append]
  simp [h, wordsBelow]

section written
variable (fmt : ObjFormat) (ws : List Word)

theorem wholeWords_objectBytes : wholeWords fmt (Memory.ofBytes (objectBytes fmt ws)) = ws.length := by
  rw [objectBytes, wholeWords_ofBytes_append (length_objectHeader ..), length_flatMap_wordBytes,
    Nat.mul_div_cancel_left _ (by decide)]

theorem partialWarnings_objectBytes :
    partialWarnings fmt (Memory.ofBytes (objectBytes fmt ws)) = [] := by
  rw [objectBytes, partialWarnings_ofBytes_append (length_objectHeader ..), length_flatMap_wordBytes,
    Nat.mul_mod_right, if_pos rfl]

theorem readWord_objectBytes {k : Nat} {w : Word} (h : ws[k]? = some w) :
    readWord fmt (Memory.ofBytes (objectBytes fmt ws)) k = some w := by
  obtain ⟨b0, b1, b2, b3, hb, hw⟩ := wordOfBytes_wordBytes w fmt
  have hbyte (j : Nat) (hj : j < 4) := readByte_objectBytes_word fmt h hj
  rw [hb] at hbyte
  rw [readWord_eq_some (hbyte 0 (by decide)) (hbyte 1 (by decide)) (hbyte 2 (by decide))
    (hbyte 3 (by decide)), hw]

theorem wordsBelow_objectBytes {k : Nat} (hk : k ≤ ws.length) :
    wordsBelow fmt (Memory.ofBytes (objectBytes fmt ws)) k = ws.take k := by
  induction k with
  | zero => rfl
  | succ k ih =>
    have hget := List.getElem?_eq_getElem hk
    rw [wordsBelow_succ (readWord_objectBytes fmt ws hget), ih (Nat.le_of_succ_le hk),
      List.take_add_one, hget]
    rfl

theorem streamWords_objectBytes : streamWords fmt (Memory.ofBytes (objectBytes fmt ws)) = ws := by
  rw [streamWords_eq, wholeWords_objectBytes, wordsBelow_objectBytes fmt ws (Nat.le_refl _),
    List.take_length]

/-- The header of a written LEGACY_BE stream is good. -/
theorem headerGood_objectBytes :
    headerGood (Memory.ofBytes (objectBytes .legacyBE ws)) = true :=
  (headerGood_ofBytes _).mpr ⟨by simp [objectBytes, wordBase], rfl⟩

/-- The count of a written LEGACY_BE stream is exact below 2^32 words (log 11). -/
theorem headerCount_objectBytes (h : ws.length < 2 ^ 32) :
    headerCount (Memory.ofBytes (objectBytes .legacyBE ws)) = ws.length := by
  obtain ⟨b0, b1, b2, b3, hb, hw⟩ := wordOfBytes_wordBytes (BitVec.ofNat 32 ws.length) .legacyBE
  have hbytes : objectBytes .legacyBE ws =
      [0x00, 0xC0, 0xFF, 0xEE, b0, b1, b2, b3] ++ ws.flatMap (wordBytes .legacyBE) := by
    rw [objectBytes, objectHeader, legacyCount, hb]
    rfl
  have hcount : (b0 ++ b1 ++ b2 ++ b3 : Word) = BitVec.ofNat 32 ws.length := hw
  rw [hbytes, headerCount_ofBytes, hcount, BitVec.toNat_ofNat, Nat.mod_eq_of_lt h]

end written

/-- Settles O33: the checks see a good header, its count and no partial word; each word is read back. -/
theorem writtenStreamReadsBack : Obligations.WrittenStreamReadsBack := by
  intro cfg words hcfg hlen
  refine ⟨?_, streamWords_objectBytes cfg.objFormat words⟩
  obtain ⟨hmax, -⟩ := Bool.and_eq_true_iff.mp hcfg
  have hmax : cfg.maxWords ≤ 2 ^ 30 := of_decide_eq_true hmax
  have hn := wholeWords_objectBytes cfg.objFormat words
  rw [← partialWarnings_objectBytes cfg.objFormat words]
  refine checkStream_ok ?_ (hn.trans_le hlen)
  cases hf : cfg.objFormat with
  | rawLE => exact .inl rfl
  | legacyBE =>
    refine .inr ⟨headerGood_objectBytes words, ?_⟩
    rw [headerCount_objectBytes words (by omega), wholeWords_objectBytes]

/-! ### ASSEMBLE line by line (R170) -/

section assembleLines
variable {cfg : Config} {n : Nat} {words : List Word} {line : Text} {lines : List Text}

theorem assembleLines_skip (hf : frontEnd line = .skip) :
    assembleLines cfg n words (line :: lines) = assembleLines cfg (n + 1) words lines := by
  rw [assembleLines, hf]

theorem assembleLines_failed {e : LineError} (hf : frontEnd line = .failed e) :
    assembleLines cfg n words (line :: lines) = .error (.atLine e.code n e.token) := by
  rw [assembleLines, hf]

theorem assembleLines_full {i : Instr} (hf : frontEnd line = .tok i.tok)
    (hfull : words.length = cfg.maxWords) :
    assembleLines cfg n words (line :: lines) = .error (.atLine .programTooLarge n line) := by
  rw [assembleLines, hf]
  simp [hfull]

theorem assembleLines_emit {i : Instr} (hf : frontEnd line = .tok i.tok)
    (hroom : words.length ≠ cfg.maxWords) :
    assembleLines cfg n words (line :: lines) = assembleLines cfg (n + 1) (words ++ [encode i]) lines := by
  rw [assembleLines, hf]
  simp [hroom]

end assembleLines

/-- Canonical lines assemble to their words while there is room for them. -/
theorem assembleLines_texts {cfg : Config} {n : Nat} {words : List Word} {is : List Instr}
    (h : words.length + is.length ≤ cfg.maxWords) :
    assembleLines cfg n words (is.map Instr.text) = .ok (words ++ is.map encode) := by
  induction is generalizing n words with
  | nil => simp [assembleLines]
  | cons i is ih =>
    rw [List.length_cons] at h
    rw [List.map_cons, assembleLines_emit (frontEnd_text i) (by omega), ih (by simp; omega)]
    simp

theorem newline_notMem_of_plainText {t : Text} (h : PlainText t) : '\n' ∉ t := fun hmem => by
  simpa [isPlain] using h.2 _ hmem

theorem newline_notMem_lineText (m : Mnemonic) {ops : List Text} (h : ∀ t ∈ ops, PlainText t) :
    '\n' ∉ lineText m ops := by
  rw [lineText, List.mem_append, List.mem_cons]
  rintro (hm | hm | hm)
  · exact newline_notMem_of_plainText (plainText_mnemonic m) hm
  · simp at hm
  · obtain hm | ⟨t, ht, hm⟩ := mem_intercalate hm
    · simp at hm
    · exact newline_notMem_of_plainText (h t ht) hm

theorem newline_notMem_text (i : Instr) : '\n' ∉ i.text := by
  have hr := plainText_regText
  have hi := plainText_immText
  have hm := plainText_memText
  cases i with
  | halt => decide
  | add | mul | sub => exact newline_notMem_lineText _ (by simp [hr])
  | addi | bne | blt | slli | lui => exact newline_notMem_lineText _ (by simp [hr, hi])
  | lw | sw => exact newline_notMem_lineText _ (by simp [hr, hm])

/-- Settles O24: the lines of the joined texts are the texts; the text of no instruction is one blank line. -/
theorem canonicalProgramAssemblesToItsWords : Obligations.CanonicalProgramAssemblesToItsWords := by
  intro cfg is h
  by_cases hne : is = []
  · subst hne
    exact assembleLines_skip (frontEnd_blank rfl)
  · have hlines : splitAtChar '\n' (['\n'].intercalate (is.map Instr.text)) = is.map Instr.text := by
      refine splitAtChar_intercalate (by simpa using hne) fun t ht => ?_
      obtain ⟨i, -, rfl⟩ := List.mem_map.mp ht
      exact newline_notMem_text i
    rw [assemble, hlines, assembleLines_texts (by simpa using h), List.nil_append]

/-! ### The output of a run that has ended (R178) -/

theorem output_of_failed {s : State} {f : Failure} (hs : s.status = .failed f) :
    s.output = some (.failure f) := by
  rw [State.output, hs]

theorem output_of_assembly_done {s : State} (hs : s.status = .done) (hm : s.mode = .assembly) :
    s.output = some (.program s.words s.stream) := by
  rw [State.output, hs, hm]

theorem output_of_disassembly_done {s : State} (hs : s.status = .done) (hm : s.mode = .disassembly) :
    s.output = some (.listing (listingText s.listing) s.warnings) := by
  rw [State.output, hs, hm]

/-! ### The machine in an assembly run is ASSEMBLE (R170, R173) -/

/-- The invariant of an assembly run that the environment does not disturb: while it is RUNNING, ASSEMBLE
goes on with the lines that are left to the answer it has for the text; at its end the run has that answer. -/
structure Assembles (cfg : Config) (text : Text) (s : State) : Prop where
  config_eq : s.config = cfg
  env_eq : s.env = {}
  mode : s.mode = .assembly
  text_eq : s.text = text
  line_pos : 1 ≤ s.lineNo
  line_le : s.lineNo ≤ s.lines.length + 1
  running : s.status = .running → s.stream = [] ∧
    assembleLines cfg s.lineNo s.words (s.lines.drop (s.lineNo - 1)) = assemble cfg text
  done : s.status = .done → s.lineNo = s.lines.length + 1 ∧ assemble cfg text = .ok s.words ∧
    s.stream = Memory.ofBytes (objectBytes cfg.objFormat s.words)
  failed : ∀ f, s.status = .failed f →
    assemble cfg text = .error f ∧ s.words = [] ∧ s.stream = []

theorem assembles_beginAssembly (cfg : Config) (text : Text) :
    Assembles cfg text (beginAssembly cfg {} text) where
  config_eq := rfl
  env_eq := rfl
  mode := rfl
  text_eq := rfl
  line_pos := Nat.le_refl 1
  line_le := Nat.le_add_left ..
  running _ := ⟨rfl, rfl⟩
  done := nofun
  failed := nofun

section assembles
variable {cfg : Config} {text : Text} {s : State} (hs : Assembles cfg text s)
include hs

/-- On a line, ASSEMBLE still has that line and those after it to do. -/
theorem Assembles.atLine {line : Text} (hl : AtLine s line) : s.stream = [] ∧
    assembleLines cfg s.lineNo s.words (line :: s.lines.drop s.lineNo) = assemble cfg text := by
  obtain ⟨hlt, hget⟩ := List.getElem?_eq_some_iff.mp hl.current
  have hdrop := List.drop_eq_getElem_cons hlt
  rw [hget, Nat.sub_add_cancel hs.line_pos] at hdrop
  rw [← hdrop]
  exact hs.running hl.status

/-- The environment's conditions and those of a stream aside, a failing step takes ASSEMBLE's record. -/
theorem Assembles.failsWith {f : Failure} (hf : FailsWith s f) :
    assemble cfg text = .error f ∧ s.stream = [] := by
  obtain rfl := hs.config_eq
  cases hf with
  | inputMissing _ hio | outputRefused _ hio => rw [hs.env_eq] at hio; cases hio
  | badStream _ hm => cases hs.mode.symm.trans hm
  | badLine _ hl hfe =>
    obtain ⟨hstream, hrest⟩ := hs.atLine hl
    exact ⟨by rw [← hrest, assembleLines_failed hfe], hstream⟩
  | programTooLarge _ hl hfe hfull =>
    obtain ⟨hstream, hrest⟩ := hs.atLine hl
    exact ⟨by rw [← hrest, assembleLines_full hfe hfull], hstream⟩

/-- After the last line ASSEMBLE has its words. -/
theorem Assembles.atEnd (hr : s.status = .running) (hl : s.currentLine = none) :
    s.lineNo = s.lines.length + 1 ∧ assemble cfg text = .ok s.words := by
  have hge : s.lines.length ≤ s.lineNo - 1 := List.getElem?_eq_none_iff.mp hl
  obtain ⟨-, hrest⟩ := hs.running hr
  rw [List.drop_eq_nil_of_le hge] at hrest
  have hle := hs.line_le
  have hpos := hs.line_pos
  exact ⟨by omega, hrest.symm⟩

end assembles

theorem step_keeps_assembles {cfg : Config} {text : Text} (s t : State) (hs : Assembles cfg text s)
    (hstep : step s = .next t) : Assembles cfg text t := by
  obtain rfl := hs.config_eq
  cases step_transition hstep with
  | ended => exact hs
  | @fail f _ hf =>
    obtain ⟨hrecord, hstream⟩ := hs.failsWith hf
    exact { hs with
      running := nofun
      done := nofun
      failed := fun f' hf' => by cases hf'; exact ⟨hrecord, rfl, hstream⟩ }
  | openText => exact { hs with }
  | openStream _ _ hm => cases hs.mode.symm.trans hm
  | skipLine _ hl hf =>
    obtain ⟨hstream, hrest⟩ := hs.atLine hl
    rw [assembleLines_skip hf] at hrest
    exact { hs with
      line_pos := Nat.le_add_left ..
      line_le := Nat.succ_le_succ (lineNo_le_of_atLine hl)
      running := fun _ => ⟨hstream, hrest⟩
      done := fun hd => by cases hl.status.symm.trans hd }
  | emit _ hl hf hroom =>
    obtain ⟨hstream, hrest⟩ := hs.atLine hl
    rw [assembleLines_emit hf hroom] at hrest
    exact { hs with
      line_pos := Nat.le_add_left ..
      line_le := Nat.succ_le_succ (lineNo_le_of_atLine hl)
      running := fun _ => ⟨hstream, hrest⟩
      done := fun hd => by cases hl.status.symm.trans hd
      failed := fun f hf => by cases hl.status.symm.trans hf }
  | writeObject h hl =>
    obtain ⟨hline, hwords⟩ := hs.atEnd h.status hl
    exact { hs with
      running := nofun
      done := fun _ => ⟨hline, hwords, rfl⟩
      failed := nofun }
  | listWord hw => cases hs.mode.symm.trans hw.mode
  | finish h => cases hs.mode.symm.trans h.mode

theorem stepsLeft_beginAssembly (cfg : Config) (env : Environment) (text : Text) :
    (beginAssembly cfg env text).stepsLeft = (splitAtChar '\n' text).length + 2 := by
  rw [stepsLeft_assembly rfl]
  simp only [beginAssembly_phase, Phase.stepsToLoop, State.lines, beginAssembly_text, beginAssembly_lineNo]
  omega

/-- Settles O37: the run ends in time, and the invariant `Assembles` says how. -/
theorem assemblyRunIsAssemble : Obligations.AssemblyRunIsAssemble := by
  intro cfg text
  obtain ⟨t, hrun, hended⟩ := exists_run_ended (s := beginAssembly cfg {} text) rfl
    fun _ => (stepsLeft_beginAssembly cfg {} text).le
  have ht := run_induction step_keeps_assembles _ _ t (assembles_beginAssembly cfg text) hrun
  refine ⟨t, hrun, ?_⟩
  cases hs : t.status with
  | running => exact absurd hs hended
  | done =>
    obtain ⟨hline, hwords, hstream⟩ := ht.done hs
    have hlines : t.lines = splitAtChar '\n' text := by rw [State.lines, ht.text_eq]
    rw [hwords]
    refine ⟨rfl, hlines ▸ hline, rfl, ?_⟩
    rw [output_of_assembly_done hs ht.mode, hstream]
  | failed f =>
    obtain ⟨hrecord, hwords, hstream⟩ := ht.failed f hs
    rw [hrecord]
    exact ⟨rfl, hwords, hstream, output_of_failed hs⟩

/-! ### DISASSEMBLE word by word (R174, R204) -/

/-- The listing of the words below an index. -/
def listingBelow (cfg : Config) (m : Memory) (k : Nat) : List Text :=
  (wordsBelow cfg.objFormat m k).mapIdx (wordLine cfg)

/-- The warnings of the words below an index. -/
def warningsBelow (cfg : Config) (m : Memory) (k : Nat) : List Warning :=
  ((wordsBelow cfg.objFormat m k).mapIdx (wordWarnings cfg)).flatten

theorem disassemble_of_ok {cfg : Config} {m : Memory} {ws : List Warning}
    (h : checkStream cfg m = .ok ws) : disassemble cfg m =
      .ok (listingBelow cfg m (wholeWords cfg.objFormat m),
        ws ++ warningsBelow cfg m (wholeWords cfg.objFormat m)) := by
  rw [disassemble, h]
  rfl

theorem disassemble_of_error {cfg : Config} {m : Memory} {f : Failure}
    (h : checkStream cfg m = .error f) : disassemble cfg m = .error f := by
  rw [disassemble, h]

/-- A canonical stream has a word at every index below its number of words. -/
theorem length_wordsBelow {fmt : ObjFormat} {m : Memory} (hwf : Memory.wf m = true) {k : Nat}
    (hk : k ≤ wholeWords fmt m) : (wordsBelow fmt m k).length = k := by
  induction k with
  | zero => rfl
  | succ k ih =>
    obtain ⟨w, hw⟩ := exists_readWord hwf hk
    rw [wordsBelow_succ hw, List.length_append, ih (Nat.le_of_succ_le hk)]
    rfl

section below
variable {cfg : Config} {m : Memory} (hwf : Memory.wf m = true) {k : Nat} {w : Word}
  (hk : k < wholeWords cfg.objFormat m) (hw : readWord cfg.objFormat m k = some w)
include hwf hk hw

theorem listingBelow_succ : listingBelow cfg m (k + 1) = listingBelow cfg m k ++ [wordLine cfg k w] := by
  rw [listingBelow, wordsBelow_succ hw, List.mapIdx_concat, length_wordsBelow hwf hk.le, listingBelow]

theorem warningsBelow_succ :
    warningsBelow cfg m (k + 1) = warningsBelow cfg m k ++ wordWarnings cfg k w := by
  rw [warningsBelow, wordsBelow_succ hw, List.mapIdx_concat, length_wordsBelow hwf hk.le, warningsBelow,
    List.flatten_append, List.flatten_singleton]

end below

/-- The step on a word lists DISASSEMBLE's line of it and records its warning. -/
theorem listRecord_dec (s : State) (w : Word) :
    (s.listRecord (dec s.config.strictDecode w)).listing = s.listing ++ [wordLine s.config s.index w] ∧
    (s.listRecord (dec s.config.strictDecode w)).warnings =
      s.warnings ++ wordWarnings s.config s.index w := by
  rw [State.listRecord_eq, dec_raw]
  exact ⟨rfl, rfl⟩

/-! ### The machine in a disassembly run is DISASSEMBLE (R174) -/

/-- In the loop the run has the listing and the warnings of the words below `index`, after the warnings
`ws` of the read. -/
structure ListsBelow (ws : List Warning) (s : State) : Prop where
  index_le : s.index ≤ s.wordCount
  listing_eq : s.listing = listingBelow s.config s.stream s.index
  warnings_eq : s.warnings = ws ++ warningsBelow s.config s.stream s.index

/-- The invariant of a disassembly run that the environment does not disturb: at its end it has the answer
of DISASSEMBLE. -/
structure Disassembles (cfg : Config) (m : Memory) (s : State) : Prop where
  config_eq : s.config = cfg
  env_eq : s.env = {}
  mode : s.mode = .disassembly
  stream_eq : s.stream = m
  opening : s.status = .running → s.phase = .opening → s.index = 0 ∧ s.listing = [] ∧ s.warnings = []
  working : s.status = .running → s.phase = .working →
    ∃ ws, checkStream s.config s.stream = .ok ws ∧ ListsBelow ws s
  done : s.status = .done →
    s.index = wholeWords cfg.objFormat m ∧ disassemble cfg m = .ok (s.listing, s.warnings)
  failed : ∀ f, s.status = .failed f →
    disassemble cfg m = .error f ∧ s.listing = [] ∧ s.warnings = []

theorem disassembles_beginDisassembly (cfg : Config) (m : Memory) :
    Disassembles cfg m (beginDisassembly cfg {} m) where
  config_eq := rfl
  env_eq := rfl
  mode := rfl
  stream_eq := rfl
  opening _ _ := ⟨rfl, rfl, rfl⟩
  working := nofun
  done := nofun
  failed := nofun

/-- Right after the read nothing but its warnings is collected. -/
theorem listsBelow_startLoop {s : State} (hindex : s.index = 0) (hlisting : s.listing = [])
    (hwarnings : s.warnings = []) (ws : List Warning) : ListsBelow ws (s.warn ws).startLoop where
  index_le := hindex.trans_le (Nat.zero_le _)
  listing_eq := by simp [hindex, hlisting, listingBelow, wordsBelow]
  warnings_eq := by simp [hindex, hwarnings, warningsBelow, wordsBelow]

theorem ListsBelow.listWord {ws : List Warning} {s : State} {w : Word} (h : ListsBelow ws s)
    (hwf : Memory.wf s.stream = true) (hw : ReadsWord s w) :
    ListsBelow ws (s.listRecord (dec s.config.strictDecode w)) := by
  obtain ⟨hlisting, hwarnings⟩ := listRecord_dec s w
  refine ⟨hw.whole, ?_, ?_⟩
  · rw [hlisting, h.listing_eq]
    exact (listingBelow_succ hwf hw.whole hw.current).symm
  · rw [hwarnings, h.warnings_eq, List.append_assoc]
    exact congrArg (ws ++ ·) (warningsBelow_succ hwf hw.whole hw.current).symm

/-- After the last word the run has DISASSEMBLE's answer. -/
theorem ListsBelow.atEnd {ws : List Warning} {s : State} (h : ListsBelow ws s)
    (hc : checkStream s.config s.stream = .ok ws) (hi : s.wordCount ≤ s.index) :
    s.index = s.wordCount ∧ disassemble s.config s.stream = .ok (s.listing, s.warnings) := by
  have hindex := Nat.le_antisymm h.index_le hi
  refine ⟨hindex, ?_⟩
  rw [disassemble_of_ok hc, h.listing_eq, h.warnings_eq, hindex]
  rfl

/-- The environment's conditions and those of a line aside, a failing step takes DISASSEMBLE's record. -/
theorem Disassembles.failsWith {cfg : Config} {m : Memory} {s : State} (hs : Disassembles cfg m s)
    {f : Failure} (hf : FailsWith s f) : disassemble cfg m = .error f := by
  obtain rfl := hs.config_eq
  obtain rfl := hs.stream_eq
  cases hf with
  | inputMissing _ hio | outputRefused _ hio => rw [hs.env_eq] at hio; cases hio
  | badStream _ _ hc => exact disassemble_of_error hc
  | badLine _ hl | programTooLarge _ hl => cases hs.mode.symm.trans hl.mode

theorem step_keeps_disassembles {cfg : Config} {m : Memory} (hwf : Memory.wf m = true) (s t : State)
    (hs : Disassembles cfg m s) (hstep : step s = .next t) : Disassembles cfg m t := by
  obtain rfl := hs.config_eq
  obtain rfl := hs.stream_eq
  cases step_transition hstep with
  | ended => exact hs
  | fail _ hf =>
    have hrecord := hs.failsWith hf
    exact { hs with
      opening := nofun
      working := nofun
      done := nofun
      failed := fun f' hf' => by cases hf'; exact ⟨hrecord, rfl, rfl⟩ }
  | openText _ _ hm => cases hs.mode.symm.trans hm
  | @openStream ws hr hp _ hc =>
    obtain ⟨hindex, hlisting, hwarnings⟩ := hs.opening hr hp
    exact { hs with
      opening := nofun
      working := fun _ _ => ⟨ws, hc, listsBelow_startLoop hindex hlisting hwarnings ws⟩
      done := fun hd => by cases hr.symm.trans hd
      failed := fun f hf => by cases hr.symm.trans hf }
  | skipLine _ hl | emit _ hl => cases hs.mode.symm.trans hl.mode
  | writeObject h => cases hs.mode.symm.trans h.mode
  | listWord hw =>
    obtain ⟨ws, hc, hbelow⟩ := hs.working hw.status hw.phase
    exact { hs with
      opening := fun _ hp => by cases hw.phase.symm.trans hp
      working := fun _ _ => ⟨ws, hc, hbelow.listWord hwf hw⟩
      done := fun hd => by cases hw.status.symm.trans hd
      failed := fun f hf => by cases hw.status.symm.trans hf }
  | finish h hi =>
    obtain ⟨ws, hc, hbelow⟩ := hs.working h.status h.phase
    exact { hs with
      opening := nofun
      working := nofun
      done := fun _ => hbelow.atEnd hc hi
      failed := nofun }

theorem stepsLeft_beginDisassembly (cfg : Config) (env : Environment) (m : Memory) :
    (beginDisassembly cfg env m).stepsLeft = wholeWords cfg.objFormat m + 2 := by
  rw [stepsLeft_disassembly rfl]
  simp only [beginDisassembly_phase, Phase.stepsToLoop, State.wordCount, beginDisassembly_config,
    beginDisassembly_stream, beginDisassembly_index]
  omega

/-- Settles O39: the run ends in time, and the invariant `Disassembles` says how. -/
theorem disassemblyRunIsDisassemble : Obligations.DisassemblyRunIsDisassemble := by
  intro cfg m hwf
  obtain ⟨t, hrun, hended⟩ := exists_run_ended (s := beginDisassembly cfg {} m) hwf
    fun _ => (stepsLeft_beginDisassembly cfg {} m).le
  have ht := run_induction (step_keeps_disassembles hwf) _ _ t (disassembles_beginDisassembly cfg m) hrun
  refine ⟨t, hrun, ht.stream_eq, ?_⟩
  cases hs : t.status with
  | running => exact absurd hs hended
  | done =>
    obtain ⟨hindex, hanswer⟩ := ht.done hs
    rw [hanswer]
    exact ⟨rfl, hindex, rfl, rfl, output_of_disassembly_done hs ht.mode⟩
  | failed f =>
    obtain ⟨hrecord, hlisting, hwarnings⟩ := ht.failed f hs
    rw [hrecord]
    exact ⟨rfl, hlisting, hwarnings, output_of_failed hs⟩

end Sys2Proof.Machine
